-- ==== Sys2Proof/Config.lean ====
section
/-! DEFINITION. What an implementation fixes (`00_scope.md` R7): the three open parameters, as one plain record. -/

namespace Sys2Proof

/-- ODD_IMAGE_POLICY, "what loading an odd number of bytes does" (`20_memory.md` R57). -/
inductive OddImagePolicy where
  /-- The load fails with LoadOddLength: the reference value. -/
  | fault
  /-- The last byte is ignored and the rest loads. -/
  | dropTrailing
  /-- A zero byte is appended. -/
  | padZero
  deriving DecidableEq, Repr

/-- The configuration of `10_state.md` R43: "It is a parameter, not state."
The machine carries it in State, where no step changes it, so that a statement about every state holds for every
setting (DESIGN CHOICE, log entry 2; safe). -/
structure Config where
  /-- STACK_CAPACITY: the most entries the stack can hold, `none` when unbounded (`10_state.md` R38). -/
  stackCapacity : Option Nat
  /-- ODD_IMAGE_POLICY (`20_memory.md` R57). -/
  oddImagePolicy : OddImagePolicy
  /-- FAULT_EXIT_CODE: the exit status of a faulted run, any non-zero value (`60_exceptions.md` R215). -/
  faultExitCode : Nat
  deriving DecidableEq, Repr

/-- The reference values of `00_scope.md` R7: unbounded, `Fault`, 1. -/
def Config.reference : Config :=
  { stackCapacity := none, oddImagePolicy := .fault, faultExitCode := 1 }

/-- FAULT_EXIT_CODE is "an open non-zero parameter" (`60_exceptions.md` R215). -/
abbrev Config.wf (c : Config) : Prop := c.faultExitCode ≠ 0

end Sys2Proof
end

