-- ==== Sys2Proof/Word.lean ====
section
/-! DEFINITION. The two bit-vector types of the core: the 16-bit Word and the byte of the image and of OUTPUT. -/

namespace Sys2Proof

/-- "The VM's native 16-bit unsigned data unit" (`00_scope.md` R6, R8): a register, a memory cell, a stack entry, the pc. -/
abbrev Word := BitVec 16

/-- One byte: of the image the loader decodes (`20_memory.md` R55) and of OUTPUT (`10_state.md` R33). -/
abbrev Byte := BitVec 8

end Sys2Proof
end

