-- ==== Sys2Proof/Syntax.lean ====
section
/-! DEFINITION. The instructions as data: one constructor for each row of spec/opcode_table.json, its operands
already sorted into the classes of `30_encoding.md` R84 and R85.

An operand word outside its valid codes is part of an instruction here (`invalid`), because a word "is checked only
when the instruction that owns the word executes" (R90): such an instruction decodes, and executing it raises
InvalidOperandCode. The rows IN and (illegal) are constructors for the same reason: executing one raises UnknownOpcode
(DESIGN CHOICE, log entry 5; safe). -/

namespace Sys2Proof

/-- The index of a general register, 0 to 7 (`10_state.md` R20). -/
abbrev Reg := Fin 8

/-- A read-position operand (`30_encoding.md` R83, R84). -/
inductive Src where
  /-- A Literal, "15 bits wide and zero-extended to 16" (R86). -/
  | lit (v : BitVec 15)
  /-- A Register Reference: the word 32768 + r. -/
  | reg (r : Reg)
  /-- A word in 32776..65535, which no read position admits. -/
  | invalid (raw : Word)
  deriving DecidableEq, Repr

/-- A write-position operand (`30_encoding.md` R85). -/
inductive Dst where
  /-- The word 32768 + r. -/
  | reg (r : Reg)
  /-- A word outside 32768..32775, which no write position admits. -/
  | invalid (raw : Word)
  deriving DecidableEq, Repr

/-- The opcode map of `30_encoding.md` R87 and the two illegal sets of R88. Operands are named a, b, c in the order
their words follow the opcode (`00_scope.md` R10). -/
inductive Instr where
  /-- Opcode 0 (R110). -/
  | halt
  /-- Opcode 1 (R115). -/
  | set (a : Dst) (b : Src)
  /-- Opcode 2 (R116). -/
  | push (a : Src)
  /-- Opcode 3 (R117). -/
  | pop (a : Dst)
  /-- Opcode 4 (R120). -/
  | eq (a : Dst) (b c : Src)
  /-- Opcode 5 (R121). -/
  | gt (a : Dst) (b c : Src)
  /-- Opcode 6 (R125). -/
  | jmp (a : Src)
  /-- Opcode 7 (R126). -/
  | jt (a b : Src)
  /-- Opcode 8 (R127). -/
  | jf (a b : Src)
  /-- Opcode 9 (R135). -/
  | add (a : Dst) (b c : Src)
  /-- Opcode 10 (R136). -/
  | mult (a : Dst) (b c : Src)
  /-- Opcode 11 (R137). -/
  | mod (a : Dst) (b c : Src)
  /-- Opcode 12 (R138). -/
  | and (a : Dst) (b c : Src)
  /-- Opcode 13 (R139). -/
  | or (a : Dst) (b c : Src)
  /-- Opcode 14 (R140). -/
  | not (a : Dst) (b : Src)
  /-- Opcode 15 (R145). -/
  | rmem (a : Dst) (b : Src)
  /-- Opcode 16 (R146): a is a read position, its value is the address. -/
  | wmem (a b : Src)
  /-- Opcode 17 (R128). -/
  | call (a : Src)
  /-- Opcode 18 (R129). -/
  | ret
  /-- Opcode 19 (R150). -/
  | out (a : Src)
  /-- Opcode 20, the row IN: "not an instruction of this core" (R151). -/
  | inp
  /-- Opcode 21 (R111). -/
  | noop
  /-- The row (illegal): an opcode word of 22..65535 (R88). -/
  | illegal (op : Word)
  deriving DecidableEq, Repr

end Sys2Proof
end

