-- ==== Sys2Proof/Machine/State.lean ====
section
/-! DEFINITION. The architectural state of the core, `10_state.md` R43, as plain data, and its reset value,
`70_reset_and_hazards.md` R240. -/

namespace Sys2Proof.Machine

/-- The eight fault kinds of `60_exceptions.md` R200. A fault of one of these kinds is the machine's own: entering it
is a next state (R210), not a stop of the model. -/
inductive FaultKind where
  /-- An operand word outside its valid codes (R201). -/
  | invalidOperandCode
  /-- A memory access, fetch included, above address 32767 (R202). -/
  | memoryOutOfRange
  /-- A Pop from an empty stack (R203). -/
  | stackUnderflow
  /-- An opcode word that is 20 or 22..65535 (R204). -/
  | unknownOpcode
  /-- MOD with a zero divisor (R205). -/
  | divisionByZero
  /-- An image of more than 32768 words (R206). -/
  | loadOverflow
  /-- An image of an odd number of bytes under ODD_IMAGE_POLICY = Fault (R207). -/
  | loadOddLength
  /-- A Push onto a full stack of finite capacity (R208). -/
  | stackOverflow
  deriving DecidableEq, Repr

/-- FAULT_INFO (`10_state.md` R35). -/
structure FaultInfo where
  kind : FaultKind
  /-- The program counter at the fault site. -/
  pc : Word
  /-- The opcode, or `none` when the fault came before an opcode was fetched. -/
  opcode : Option Word
  deriving DecidableEq, Repr

/-- RUN_STATE (`10_state.md` R34): "exactly these three". -/
inductive RunState where
  | running
  | halted
  | faulted
  deriving DecidableEq, Repr

/-- Memory as canonical cells, keyed by the byte's place in the image: word w is the bytes 2w (bits 7:0) and 2w+1
(bits 15:8), as the load lays them out (`20_memory.md` R55). Keys rise strictly and no cell holds 0, which is what an
unlisted cell reads as (R42, R55). Nothing but whole words is ever read or written (R59). DESIGN CHOICE, log entry 4; safe. -/
abbrev Memory := List Host.Cell

/-- The whole architectural state (`10_state.md` R43), and the configuration beside it. -/
structure State where
  /-- The register file r0..r7 (R20). -/
  regs : Vector Word 8
  /-- The program counter (R28). -/
  pc : Word
  /-- Memory (`20_memory.md` R50). -/
  mem : Memory
  /-- The stack, bottom first: "tail = top" (R36, R43). -/
  stack : List Word
  /-- RUN_STATE (R34). -/
  runState : RunState
  /-- FAULT_INFO (R35), absent until a fault writes it (DESIGN CHOICE, log entry 3; unsafe). -/
  fault : Option FaultInfo
  /-- OUTPUT, oldest byte first (R33). -/
  output : List Byte
  /-- The open parameters (`00_scope.md` R7); no step changes them (DESIGN CHOICE, log entry 2; safe). -/
  config : Config
  deriving DecidableEq, Repr

/-- Why a step is not defined: "No step is defined from a state whose RUN_STATE is Halted or Faulted" (`30_encoding.md`
R98), which `93_implementation_defined.md` calls "stuck, by design". These are the model's only stops; no instruction
raises one. -/
inductive Fault where
  /-- Raised by `step` when RUN_STATE is Halted: the run is over. Safe (DEDUCED, log entry 1). -/
  | runHalted
  /-- Raised by `step` when RUN_STATE is Faulted: the run is over. Safe (DEDUCED, log entry 1). -/
  | runFaulted
  deriving DecidableEq, Repr

/-- Why the model gives no meaning. -/
inductive Refusal where
  /-- An instruction without a meaning yet, by its mnemonic; raised by an arm of `exec` alone, and by none now. Safe. -/
  | notModelled (mnemonic : String)
  deriving DecidableEq, Repr

/-- What executing one instruction answers. -/
abbrev Result := Host.Outcome State Fault Refusal

/-- The core as constructed, before the load, with parameters `c` (`70_reset_and_hazards.md` R240): registers 0, pc 0,
memory 0, stack and OUTPUT empty. RUN_STATE is the value a successful load leaves, Running. -/
def State.init (c : Config) : State :=
  { regs := Vector.replicate 8 0
    pc := 0
    mem := []
    stack := []
    runState := .running
    fault := none
    output := []
    config := c }

/-- The core right after reset, nothing loaded (R240), under the reference parameters of `00_scope.md` R7. It is what
booting the empty image leaves (R56); log entry 6. -/
def State.reset : State := State.init Config.reference

end Sys2Proof.Machine
end

