-- ==== Sys2Proof/Machine/Ops.lean ====
section
/-! DEFINITION. The named operations of `00_scope.md` R9 over registers, memory, stack, OUTPUT and pc, and entering a
fault (`60_exceptions.md` R210). An operation that can raise a fault answers `Except FaultKind`; the machine has no
trap return to put beside fault entry (R213). -/

namespace Sys2Proof.Machine

/-! ### Memory cells -/

/-- What a cell that is not listed reads as: "zero at every address" (`20_memory.md` R55, `10_state.md` R42). -/
def unlistedByte : Byte := 0

/-- One cell. -/
def readByte : Memory → Nat → Byte
  | [], _ => unlistedByte
  | (k, b) :: m, n => if k = n then b else readByte m n

/-- Sets one cell and keeps the canonical form: a cell set to `unlistedByte` is not listed. -/
def writeByte : Memory → Nat → Byte → Memory
  | [], n, v => if v = unlistedByte then [] else [(n, v)]
  | (k, b) :: m, n, v =>
    if n < k then (if v = unlistedByte then (k, b) :: m else (n, v) :: (k, b) :: m)
    else if n = k then (if v = unlistedByte then m else (n, v) :: m)
    else (k, b) :: writeByte m n v

/-- MEM_WORDS (`00_scope.md` R6). -/
def memWords : Nat := 32768

/-- The canonical form: keys rise strictly from `lo`, none reaches the end of the 32768 words, and no cell holds what
an unlisted cell reads as. -/
def cellsOk : Nat → Memory → Bool
  | _, [] => true
  | lo, (k, b) :: m => decide (lo ≤ k) && decide (k < 2 * memWords) && decide (b ≠ unlistedByte) && cellsOk (k + 1) m

/-- The memory is in canonical form. -/
def Memory.wf (m : Memory) : Bool := cellsOk 0 m

/-- The word at word address `a`: the one place that joins cells, low byte first (R55). -/
def readWord (m : Memory) (a : Nat) : Word := readByte m (2 * a + 1) ++ readByte m (2 * a)

/-- Sets the word at word address `a`: the one place that splits a word. -/
def writeWord (m : Memory) (a : Nat) (v : Word) : Memory :=
  writeByte (writeByte m (2 * a) (v.extractLsb' 0 8)) (2 * a + 1) (v.extractLsb' 8 8)

/-- The words `ws` in Memory from word address `a` on; what would lie above 32767 is left out. -/
def storeWords : List Word → Nat → Memory → Memory
  | [], _, m => m
  | w :: ws, a, m => if memWords ≤ a then m else storeWords ws (a + 1) (writeWord m a w)

/-! ### Updates of the state -/

/-- `pc <- target`. -/
def setPc (target : Word) (s : State) : State := { s with pc := target }

/-- The sequential advance by an instruction's length in words (`30_encoding.md` R97). On every state whose
instruction was fetched the sum is at most 32768, so it does not wrap (log entry 8). -/
def advance (n : Nat) (s : State) : State := setPc (s.pc + BitVec.ofNat 16 n) s

/-- `x[r] <- v` (`10_state.md` R20). -/
def writeReg (r : Reg) (v : Word) (s : State) : State := { s with regs := s.regs.set r v }

/-- `x[r]`. -/
def readReg (s : State) (r : Reg) : Word := s.regs[r]

/-- Replaces Memory. -/
def setMem (m : Memory) (s : State) : State := { s with mem := m }

/-- Replaces the stack. -/
def setStack (l : List Word) (s : State) : State := { s with stack := l }

/-- `Emit(byte)` (`10_state.md` R33): appends one byte at the end of OUTPUT. -/
def emit (b : Byte) (s : State) : State := { s with output := s.output ++ [b] }

/-- Moves RUN_STATE. -/
def setRunState (r : RunState) (s : State) : State := { s with runState := r }

/-! ### Accesses that can fault -/

/-- `MemRead(addr, 1)` (`20_memory.md` R51). -/
def memRead (s : State) (addr : Word) : Except FaultKind Word :=
  if memWords ≤ addr.toNat then .error .memoryOutOfRange else .ok (readWord s.mem addr.toNat)

/-- `MemWrite(addr, 1, v)` (`20_memory.md` R52). -/
def memWrite (addr v : Word) (s : State) : Except FaultKind State :=
  if memWords ≤ addr.toNat then .error .memoryOutOfRange
  else .ok (setMem (writeWord s.mem addr.toNat v) s)

/-- The stack is at STACK_CAPACITY, which is finite (`10_state.md` R38). -/
def stackFull (s : State) : Bool :=
  match s.config.stackCapacity with
  | none => false
  | some n => decide (n ≤ s.stack.length)

/-- `Push(v)` (`10_state.md` R36). -/
def pushWord (v : Word) (s : State) : Except FaultKind State :=
  if stackFull s then .error .stackOverflow else .ok (setStack (s.stack ++ [v]) s)

/-- `Pop()` (`10_state.md` R37): the tail entry, and the state without it. -/
def popWord (s : State) : Except FaultKind (Word × State) :=
  match s.stack.getLast? with
  | none => .error .stackUnderflow
  | some v => .ok (v, setStack s.stack.dropLast s)

/-! ### Entering a fault, and committing -/

/-- Fault entry (`60_exceptions.md` R210): RUN_STATE becomes Faulted and FAULT_INFO is written; "nothing else
changes", so pc keeps the opcode's address. -/
def takeFault (k : FaultKind) (op : Option Word) (s : State) : State :=
  { s with runState := .faulted, fault := some { kind := k, pc := s.pc, opcode := op } }

/-- The end of an instruction with opcode `op` that began in `s` (`30_encoding.md` R96): all of its writes, which
`r` holds, or none of them and the fault entry. -/
def commit (op : Word) (s : State) (r : Except FaultKind State) : Result :=
  match r with
  | .ok t => .next t
  | .error k => .next (takeFault k (some op) s)

end Sys2Proof.Machine
end

