-- ==== Sys2Proof/Machine/Flags.lean ====
section
/-! DEFINITION. The core "has no flags, condition codes or predicate registers" (`10_state.md` R32). What stands in
their place is here: the 0 or 1 a comparison writes, and the zero test of a conditional jump. -/

namespace Sys2Proof.Machine

/-- A comparison's result as the word EQ and GT write (`42_compare.md` R120, R121). -/
def boolWord (b : Bool) : Word := if b then 1 else 0

/-- The condition of JT and JF: "any non-zero value counts as true" (`43_control_flow.md` R126). -/
def conditionHolds (v : Word) : Bool := v != 0

end Sys2Proof.Machine
end

