-- ==== Sys2Proof/Machine/Alu.lean ====
section
/-! DEFINITION. What the arithmetic unit computes (`44_arithmetic_logic.md` R134 to R140, `42_compare.md`): on exact
unsigned numbers, narrowed once at the end. -/

namespace Sys2Proof.Machine

/-- MODULUS, the ADD and MULT reduction (`00_scope.md` R6). -/
def modulus : Nat := 32768

/-- R135: (b + c) mod 32768. -/
def aluAdd (b c : Word) : Word := BitVec.ofNat 16 ((b.toNat + c.toNat) % modulus)

/-- R136: (b × c) mod 32768. -/
def aluMult (b c : Word) : Word := BitVec.ofNat 16 ((b.toNat * c.toNat) % modulus)

/-- R137: the unsigned remainder; a zero divisor raises DivisionByZero and gives no value. -/
def aluMod (b c : Word) : Except FaultKind Word :=
  if c = 0 then .error .divisionByZero else .ok (BitVec.ofNat 16 (b.toNat % c.toNat))

/-- R138: bitwise AND of all 16 bits, no mask. -/
def aluAnd (b c : Word) : Word := b &&& c

/-- R139: bitwise OR of all 16 bits, no mask. -/
def aluOr (b c : Word) : Word := b ||| c

/-- R140: the complement of bits 14:0, bit 15 always 0. -/
def aluNot (b : Word) : Word := ~~~b &&& 0x7FFF

/-- R120: 16-bit equality. -/
def aluEq (b c : Word) : Word := boolWord (b == c)

/-- R121: unsigned 16-bit comparison. -/
def aluGt (b c : Word) : Word := boolWord (decide (c.toNat < b.toNat))

end Sys2Proof.Machine
end

