-- ==== Sys2Proof/WellFormed.lean ====
section
/-! DEFINITION. Which terms of `Instr` stand for words (`wf`: each term is the one reading of its words), and which
are instructions of the core with valid operands (`legal`). -/

namespace Sys2Proof

/-- `invalid` holds only words that are invalid in a read position: 32776..65535 (`30_encoding.md` R83). -/
def Src.wf : Src → Bool
  | .lit _ => true
  | .reg _ => true
  | .invalid raw => decide (32776 ≤ raw.toNat)

/-- `invalid` holds only words that are invalid in a write position: 0..32767 and 32776..65535 (R85). -/
def Dst.wf : Dst → Bool
  | .reg _ => true
  | .invalid raw => decide (raw.toNat < 32768 ∨ 32776 ≤ raw.toNat)

/-- Every operand is well-formed, and `illegal` holds only a word of 22..65535 (R88). -/
def Instr.wf : Instr → Bool
  | .halt => true
  | .set a b => a.wf && b.wf
  | .push a => a.wf
  | .pop a => a.wf
  | .eq a b c => a.wf && b.wf && c.wf
  | .gt a b c => a.wf && b.wf && c.wf
  | .jmp a => a.wf
  | .jt a b => a.wf && b.wf
  | .jf a b => a.wf && b.wf
  | .add a b c => a.wf && b.wf && c.wf
  | .mult a b c => a.wf && b.wf && c.wf
  | .mod a b c => a.wf && b.wf && c.wf
  | .and a b c => a.wf && b.wf && c.wf
  | .or a b c => a.wf && b.wf && c.wf
  | .not a b => a.wf && b.wf
  | .rmem a b => a.wf && b.wf
  | .wmem a b => a.wf && b.wf
  | .call a => a.wf
  | .ret => true
  | .out a => a.wf
  | .inp => true
  | .noop => true
  | .illegal op => decide (22 ≤ op.toNat)

/-- The operand can be resolved: a Literal or a Register Reference. -/
def Src.legal : Src → Bool
  | .lit _ => true
  | .reg _ => true
  | .invalid _ => false

/-- The operand names a register. -/
def Dst.legal : Dst → Bool
  | .reg _ => true
  | .invalid _ => false

/-- One of the 21 instructions of R87, every operand within its valid codes. -/
def Instr.legal : Instr → Bool
  | .halt => true
  | .set a b => a.legal && b.legal
  | .push a => a.legal
  | .pop a => a.legal
  | .eq a b c => a.legal && b.legal && c.legal
  | .gt a b c => a.legal && b.legal && c.legal
  | .jmp a => a.legal
  | .jt a b => a.legal && b.legal
  | .jf a b => a.legal && b.legal
  | .add a b c => a.legal && b.legal && c.legal
  | .mult a b c => a.legal && b.legal && c.legal
  | .mod a b c => a.legal && b.legal && c.legal
  | .and a b c => a.legal && b.legal && c.legal
  | .or a b c => a.legal && b.legal && c.legal
  | .not a b => a.legal && b.legal
  | .rmem a b => a.legal && b.legal
  | .wmem a b => a.legal && b.legal
  | .call a => a.legal
  | .ret => true
  | .out a => a.legal
  | .inp => false
  | .noop => true
  | .illegal _ => false

end Sys2Proof
end

