-- ==== Sys2Proof/Decode.lean ====
section
/-! DEFINITION. The decoder, total on any words and any bytes, and after it the encoder, both written from
`30_encoding.md` R80 to R89. -/

namespace Sys2Proof

/-- Why a list of words holds no whole instruction. Both are reported by the fetch as MemoryOutOfRange
(`30_encoding.md` R94 steps 1 and 3); safe. -/
inductive DecodeError where
  /-- There is no opcode word. -/
  | noOpcode
  /-- The opcode word is `op`, and an operand word it needs is missing. -/
  | truncated (op : Word)
  deriving DecidableEq, Repr

/-- The class of a read-position operand word (R83, R84). -/
def decodeSrc (raw : Word) : Src :=
  if raw.toNat ≤ 32767 then .lit (raw.setWidth 15)
  else if h : raw.toNat ≤ 32775 then .reg ⟨raw.toNat - 32768, by omega⟩
  else .invalid raw

/-- The class of a write-position operand word (R85). -/
def decodeDst (raw : Word) : Dst :=
  if h : 32768 ≤ raw.toNat ∧ raw.toNat ≤ 32775 then .reg ⟨raw.toNat - 32768, by omega⟩
  else .invalid raw

/-- Format F1R (R81). -/
def decodeF1R (op : Word) (mk : Src → Instr) : List Word → Except DecodeError (Instr × List Word)
  | a :: rest => .ok (mk (decodeSrc a), rest)
  | _ => .error (.truncated op)

/-- Format F1W (R81). -/
def decodeF1W (op : Word) (mk : Dst → Instr) : List Word → Except DecodeError (Instr × List Word)
  | a :: rest => .ok (mk (decodeDst a), rest)
  | _ => .error (.truncated op)

/-- Format F2WR (R81). -/
def decodeF2WR (op : Word) (mk : Dst → Src → Instr) : List Word → Except DecodeError (Instr × List Word)
  | a :: b :: rest => .ok (mk (decodeDst a) (decodeSrc b), rest)
  | _ => .error (.truncated op)

/-- Format F2RR (R81). -/
def decodeF2RR (op : Word) (mk : Src → Src → Instr) : List Word → Except DecodeError (Instr × List Word)
  | a :: b :: rest => .ok (mk (decodeSrc a) (decodeSrc b), rest)
  | _ => .error (.truncated op)

/-- Format F3WRR (R81). -/
def decodeF3WRR (op : Word) (mk : Dst → Src → Src → Instr) :
    List Word → Except DecodeError (Instr × List Word)
  | a :: b :: c :: rest => .ok (mk (decodeDst a) (decodeSrc b) (decodeSrc c), rest)
  | _ => .error (.truncated op)

/-- The instruction at the head of `ws` and the words after it. The opcode is "the whole word 0" (R82), looked up in
the map of R87; 20 and 22..65535 are the illegal opcodes of R88 and take no operand word. -/
def decode (ws : List Word) : Except DecodeError (Instr × List Word) :=
  match ws with
  | [] => .error .noOpcode
  | op :: rest =>
    match op.toNat with
    | 0 => .ok (.halt, rest)
    | 1 => decodeF2WR op .set rest
    | 2 => decodeF1R op .push rest
    | 3 => decodeF1W op .pop rest
    | 4 => decodeF3WRR op .eq rest
    | 5 => decodeF3WRR op .gt rest
    | 6 => decodeF1R op .jmp rest
    | 7 => decodeF2RR op .jt rest
    | 8 => decodeF2RR op .jf rest
    | 9 => decodeF3WRR op .add rest
    | 10 => decodeF3WRR op .mult rest
    | 11 => decodeF3WRR op .mod rest
    | 12 => decodeF3WRR op .and rest
    | 13 => decodeF3WRR op .or rest
    | 14 => decodeF2WR op .not rest
    | 15 => decodeF2WR op .rmem rest
    | 16 => decodeF2RR op .wmem rest
    | 17 => decodeF1R op .call rest
    | 18 => .ok (.ret, rest)
    | 19 => decodeF1R op .out rest
    | 20 => .ok (.inp, rest)
    | 21 => .ok (.noop, rest)
    | _ => .ok (.illegal op, rest)

/-- Little-endian 16-bit pairs as words: the first byte of a pair is bits 7:0 (`20_memory.md` R55). A last byte
without a partner is left out; the loader settles odd lengths before (R57). -/
def wordsOfBytes : List Byte → List Word
  | lo :: hi :: rest => (hi ++ lo) :: wordsOfBytes rest
  | _ => []

/-- The words as the image holds them, each low byte first (R55). -/
def bytesOfWords : List Word → List Byte
  | [] => []
  | w :: ws => w.extractLsb' 0 8 :: w.extractLsb' 8 8 :: bytesOfWords ws

/-- The instruction an image starts with, and the words after it. -/
def decodeBytes (bs : List Byte) : Except DecodeError (Instr × List Word) :=
  decode (wordsOfBytes bs)

/-! ### The encoder -/

/-- The opcode word (R87, R88). -/
def Instr.opcode : Instr → Word
  | .halt => 0
  | .set _ _ => 1
  | .push _ => 2
  | .pop _ => 3
  | .eq _ _ _ => 4
  | .gt _ _ _ => 5
  | .jmp _ => 6
  | .jt _ _ => 7
  | .jf _ _ => 8
  | .add _ _ _ => 9
  | .mult _ _ _ => 10
  | .mod _ _ _ => 11
  | .and _ _ _ => 12
  | .or _ _ _ => 13
  | .not _ _ => 14
  | .rmem _ _ => 15
  | .wmem _ _ => 16
  | .call _ => 17
  | .ret => 18
  | .out _ => 19
  | .inp => 20
  | .noop => 21
  | .illegal op => op

/-- The word of a read-position operand: a Literal is itself, register r is 32768 + r (R83, `10_state.md` R21). -/
def encodeSrc : Src → Word
  | .lit v => v.setWidth 16
  | .reg r => BitVec.ofNat 16 (32768 + r.val)
  | .invalid raw => raw

/-- The word of a write-position operand: register r is 32768 + r (R85). -/
def encodeDst : Dst → Word
  | .reg r => BitVec.ofNat 16 (32768 + r.val)
  | .invalid raw => raw

/-- The operand words, a then b then c (R80). -/
def encodeOperands : Instr → List Word
  | .halt => []
  | .set a b => [encodeDst a, encodeSrc b]
  | .push a => [encodeSrc a]
  | .pop a => [encodeDst a]
  | .eq a b c => [encodeDst a, encodeSrc b, encodeSrc c]
  | .gt a b c => [encodeDst a, encodeSrc b, encodeSrc c]
  | .jmp a => [encodeSrc a]
  | .jt a b => [encodeSrc a, encodeSrc b]
  | .jf a b => [encodeSrc a, encodeSrc b]
  | .add a b c => [encodeDst a, encodeSrc b, encodeSrc c]
  | .mult a b c => [encodeDst a, encodeSrc b, encodeSrc c]
  | .mod a b c => [encodeDst a, encodeSrc b, encodeSrc c]
  | .and a b c => [encodeDst a, encodeSrc b, encodeSrc c]
  | .or a b c => [encodeDst a, encodeSrc b, encodeSrc c]
  | .not a b => [encodeDst a, encodeSrc b]
  | .rmem a b => [encodeDst a, encodeSrc b]
  | .wmem a b => [encodeSrc a, encodeSrc b]
  | .call a => [encodeSrc a]
  | .ret => []
  | .out a => [encodeSrc a]
  | .inp => []
  | .noop => []
  | .illegal _ => []

/-- The words of an instruction, opcode first (R80). -/
def encode (i : Instr) : List Word := i.opcode :: encodeOperands i

/-- operand_count of R81 and R94, by the opcode's number; an illegal opcode takes none. -/
def operandCount (op : Word) : Nat :=
  match op.toNat with
  | 1 => 2
  | 2 => 1
  | 3 => 1
  | 4 => 3
  | 5 => 3
  | 6 => 1
  | 7 => 2
  | 8 => 2
  | 9 => 3
  | 10 => 3
  | 11 => 3
  | 12 => 3
  | 13 => 3
  | 14 => 2
  | 15 => 2
  | 16 => 2
  | 17 => 1
  | 19 => 1
  | _ => 0

/-! ### The host's numbering of an instruction's bits -/

/-- The four words of an instruction whose bits are `w`, bit 0 the least significant bit of the first word; bits from
`nbits` on are 0. Four words is the longest instruction (R80). -/
def tableWords (nbits w : Nat) : List Word :=
  let v := w % 2 ^ nbits
  [BitVec.ofNat 16 v, BitVec.ofNat 16 (v / 2 ^ 16), BitVec.ofNat 16 (v / 2 ^ 32), BitVec.ofNat 16 (v / 2 ^ 48)]

/-- The instruction the decoder reads from those words, laid out as image bytes. -/
def decodeTableWord (nbits w : Nat) : Option Instr :=
  match decodeBytes (bytesOfWords (tableWords nbits w)) with
  | .ok (i, _) => some i
  | .error _ => none

end Sys2Proof
end

