-- ==== Sys2Proof/Machine/Operands.lean ====
section
/-! DEFINITION. The two operand forms (`30_encoding.md` R83, R85) and the operand-decoding part of each format (R81,
R94 step 4): every operand is decoded, in the order a, b, c, before the operation's own check. -/

namespace Sys2Proof.Machine

/-- The Operand Resolver (R83): one level, against the registers at the start of the instruction. -/
def resolve (s : State) : Src → Except FaultKind Word
  | .lit v => .ok (v.setWidth 16)
  | .reg r => .ok (readReg s r)
  | .invalid _ => .error .invalidOperandCode

/-- The write-operand decode (R85). -/
def regIndex : Dst → Except FaultKind Reg
  | .reg r => .ok r
  | .invalid _ => .error .invalidOperandCode

/-- Format F1R: `f` gives the state after the instruction from the value of a. -/
def withR (s : State) (a : Src) (f : Word → Except FaultKind State) : Except FaultKind State := do
  let va ← resolve s a
  f va

/-- Format F1W. -/
def withW (a : Dst) (f : Reg → Except FaultKind State) : Except FaultKind State := do
  let r ← regIndex a
  f r

/-- Format F2WR. -/
def withWR (s : State) (a : Dst) (b : Src) (f : Reg → Word → Except FaultKind State) : Except FaultKind State := do
  let r ← regIndex a
  let vb ← resolve s b
  f r vb

/-- Format F2RR: both operands are resolved, whether or not `f` uses them (R95). -/
def withRR (s : State) (a b : Src) (f : Word → Word → Except FaultKind State) : Except FaultKind State := do
  let va ← resolve s a
  let vb ← resolve s b
  f va vb

/-- Format F3WRR. -/
def withWRR (s : State) (a : Dst) (b c : Src) (f : Reg → Word → Word → Except FaultKind State) :
    Except FaultKind State := do
  let r ← regIndex a
  let vb ← resolve s b
  let vc ← resolve s c
  f r vb vc

end Sys2Proof.Machine
end

