-- ==== Sys2Proof/Machine/ArithLogic.lean ====
section
/-! DEFINITION. ADD, MULT, MOD, AND, OR and NOT (`44_arithmetic_logic.md`). -/

namespace Sys2Proof.Machine

/-- R135. -/
def execAdd (a : Dst) (b c : Src) (s : State) : Result :=
  commit (Instr.add a b c).opcode s <| withWRR s a b c fun r vb vc =>
    .ok (advance 4 (writeReg r (aluAdd vb vc) s))

/-- R136. -/
def execMult (a : Dst) (b c : Src) (s : State) : Result :=
  commit (Instr.mult a b c).opcode s <| withWRR s a b c fun r vb vc =>
    .ok (advance 4 (writeReg r (aluMult vb vc) s))

/-- R137: all operands are decoded before the divisor is tested. -/
def execMod (a : Dst) (b c : Src) (s : State) : Result :=
  commit (Instr.mod a b c).opcode s <| withWRR s a b c fun r vb vc =>
    (aluMod vb vc).map fun v => advance 4 (writeReg r v s)

/-- R138. -/
def execAnd (a : Dst) (b c : Src) (s : State) : Result :=
  commit (Instr.and a b c).opcode s <| withWRR s a b c fun r vb vc =>
    .ok (advance 4 (writeReg r (aluAnd vb vc) s))

/-- R139. -/
def execOr (a : Dst) (b c : Src) (s : State) : Result :=
  commit (Instr.or a b c).opcode s <| withWRR s a b c fun r vb vc =>
    .ok (advance 4 (writeReg r (aluOr vb vc) s))

/-- R140. -/
def execNot (a : Dst) (b : Src) (s : State) : Result :=
  commit (Instr.not a b).opcode s <| withWR s a b fun r vb =>
    .ok (advance 3 (writeReg r (aluNot vb) s))

end Sys2Proof.Machine
end

