-- ==== Sys2Proof/Machine/Compare.lean ====
section
/-! DEFINITION. EQ and GT (`42_compare.md`). -/

namespace Sys2Proof.Machine

/-- R120: 1 if b and c have equal values, and 0 otherwise. -/
def execEq (a : Dst) (b c : Src) (s : State) : Result :=
  commit (Instr.eq a b c).opcode s <| withWRR s a b c fun r vb vc =>
    .ok (advance 4 (writeReg r (aluEq vb vc) s))

/-- R121: 1 if b is strictly greater than c, and 0 otherwise. -/
def execGt (a : Dst) (b c : Src) (s : State) : Result :=
  commit (Instr.gt a b c).opcode s <| withWRR s a b c fun r vb vc =>
    .ok (advance 4 (writeReg r (aluGt vb vc) s))

end Sys2Proof.Machine
end

