-- ==== Sys2Proof/Machine/ControlFlow.lean ====
section
/-! DEFINITION. JMP, JT, JF, CALL and RET (`43_control_flow.md`). A target is an absolute address, written to pc
unchecked (R124). -/

namespace Sys2Proof.Machine

/-- R125: "pc = resolve(a)". -/
def execJmp (a : Src) (s : State) : Result :=
  commit (Instr.jmp a).opcode s <| withR s a fun va =>
    .ok (setPc va s)

/-- R126: to b if a is non-zero, else on to the next instruction. -/
def execJt (a b : Src) (s : State) : Result :=
  commit (Instr.jt a b).opcode s <| withRR s a b fun va vb =>
    .ok (if conditionHolds va then setPc vb s else advance 3 s)

/-- R127: to b if a is zero, else on to the next instruction. -/
def execJf (a b : Src) (s : State) : Result :=
  commit (Instr.jf a b).opcode s <| withRR s a b fun va vb =>
    .ok (if conditionHolds va then advance 3 s else setPc vb s)

/-- R128: "stack.push(pc+2); pc = resolve(a)". -/
def execCall (a : Src) (s : State) : Result :=
  commit (Instr.call a).opcode s <| withR s a fun va =>
    (pushWord (s.pc + 2) s).map (setPc va)

/-- R129: "pc = stack.pop()"; an empty stack is a fault (D9). -/
def execRet (s : State) : Result :=
  commit Instr.ret.opcode s <|
    (popWord s).map fun (v, t) => setPc v t

end Sys2Proof.Machine
end

