-- ==== Sys2Proof/Machine/MachineControl.lean ====
section
/-! DEFINITION. HALT and NOOP (`40_machine_control.md`). -/

namespace Sys2Proof.Machine

/-- R110: RUN_STATE becomes Halted; pc stays at the HALT. -/
def execHalt (s : State) : Result :=
  commit Instr.halt.opcode s (.ok (setRunState .halted s))

/-- R111: pc advances by 1. -/
def execNoop (s : State) : Result :=
  commit Instr.noop.opcode s (.ok (advance 1 s))

end Sys2Proof.Machine
end

