-- ==== Sys2Proof/Machine/MemoryAccess.lean ====
section
/-! DEFINITION. RMEM and WMEM (`45_memory_access.md`). The effective address is the resolved value itself (R144). -/

namespace Sys2Proof.Machine

/-- R145: "Register[a] = Memory[resolve(b)]", the raw word, not resolved. -/
def execRmem (a : Dst) (b : Src) (s : State) : Result :=
  commit (Instr.rmem a b).opcode s <| withWR s a b fun r addr =>
    (memRead s addr).map fun v => advance 3 (writeReg r v s)

/-- R146: "Memory[resolve(a)] = resolve(b)". -/
def execWmem (a b : Src) (s : State) : Result :=
  commit (Instr.wmem a b).opcode s <| withRR s a b fun addr v =>
    (memWrite addr v s).map (advance 3)

end Sys2Proof.Machine
end

