-- ==== Sys2Proof/Machine/OutputInput.lean ====
section
/-! DEFINITION. OUT, and the two rows that are no instruction of the core: IN (`46_output_input.md`) and (illegal)
(`30_encoding.md` R88). -/

namespace Sys2Proof.Machine

/-- R150: "emit low 8 bits of resolve(a) as one output character". The host accepts the byte at once (D21, log entry 7). -/
def execOut (a : Src) (s : State) : Result :=
  commit (Instr.out a).opcode s <| withR s a fun va =>
    .ok (advance 2 (emit (va.extractLsb' 0 8) s))

/-- R151: "Fetching the word 20 in opcode position raises UnknownOpcode with opcode = 20 and pc = p". -/
def execInp (s : State) : Result :=
  commit Instr.inp.opcode s (.error .unknownOpcode)

/-- R88: raises UnknownOpcode "with FAULT_INFO.opcode set to that word". -/
def execIllegal (op : Word) (s : State) : Result :=
  commit (Instr.illegal op).opcode s (.error .unknownOpcode)

end Sys2Proof.Machine
end

