-- ==== Sys2Proof/Machine/RegisterStack.lean ====
section
/-! DEFINITION. SET, PUSH and POP (`41_register_stack.md`). -/

namespace Sys2Proof.Machine

/-- R115: "Register[a] = resolve(b)". -/
def execSet (a : Dst) (b : Src) (s : State) : Result :=
  commit (Instr.set a b).opcode s <| withWR s a b fun r vb =>
    .ok (advance 3 (writeReg r vb s))

/-- R116: "stack.push(resolve(a))". -/
def execPush (a : Src) (s : State) : Result :=
  commit (Instr.push a).opcode s <| withR s a fun va =>
    (pushWord va s).map (advance 2)

/-- R117: "Register[a] = stack.pop() (fault if empty)"; a is decoded before the stack is looked at. -/
def execPop (a : Dst) (s : State) : Result :=
  commit (Instr.pop a).opcode s <| withW a fun r =>
    (popWord s).map fun (v, t) => advance 2 (writeReg r v t)

end Sys2Proof.Machine
end

