-- ==== Sys2Proof/Machine/Fetch.lean ====
section
/-! DEFINITION. The fetch-decode-execute cycle (`30_encoding.md` R94), which `Step.lean` calls. -/

namespace Sys2Proof.Machine

/-- Up to `n` words from word address `a` on, ending where Memory ends. Reads have no side effect (`20_memory.md` R61),
so a word the instruction turns out not to need changes nothing (DEDUCED, log entry 9; safe). -/
def fetchWords (m : Memory) : (n a : Nat) → List Word
  | 0, _ => []
  | n + 1, a => if memWords ≤ a then [] else readWord m a :: fetchWords m n (a + 1)

/-- The longest instruction, in words (R80). -/
def maxWords : Nat := 4

/-- The words at the pc that an instruction can occupy. -/
def fetchWindow (s : State) : List Word := fetchWords s.mem maxWords s.pc.toNat

/-- One cycle of a running core: fetch, decode, execute. A pc above 32767 leaves no opcode word (R94 step 1), and an
operand word above 32767 is missing (step 3); both raise MemoryOutOfRange, with pc the opcode's address. -/
def cycle (s : State) : Result :=
  match decode (fetchWindow s) with
  | .ok (i, _) => exec i s
  | .error .noOpcode => .next (takeFault .memoryOutOfRange none s)
  | .error (.truncated op) => .next (takeFault .memoryOutOfRange (some op) s)

/-- Why no step is defined from `s`, if none is (R98). -/
def runOver (s : State) : Option Fault :=
  match s.runState with
  | .running => none
  | .halted => some .runHalted
  | .faulted => some .runFaulted

end Sys2Proof.Machine
end

