-- ==== Sys2Proof/Machine/Step.lean ====
section
/-! DEFINITION. One step of the core, and placing an instruction where the next step fetches. -/

namespace Sys2Proof.Machine

/-- One step (`30_encoding.md` R94, R98): a cycle when RUN_STATE is Running, a stop when the run is over. -/
def step (s : State) : Host.Outcome State Fault Refusal :=
  match runOver s with
  | some f => .fault f
  | none => cycle s

/-- `s` with the four words of the instruction whose bits are `w` at its pc; nothing else changes (log entry 6). -/
def State.withFetchWord (s : State) (nbits w : Nat) : State :=
  setMem (storeWords (tableWords nbits w) s.pc.toNat s.mem) s

end Sys2Proof.Machine
end

