-- ==== Sys2Proof/Machine/Boot.lean ====
section
/-! DEFINITION. The load (`20_memory.md` R55 to R58, `70_reset_and_hazards.md` R242, R243): what the host does once,
before the first step. And what the host reads of a run (`60_exceptions.md` R215, R223). -/

namespace Sys2Proof.Machine

/-- The image after ODD_IMAGE_POLICY (`20_memory.md` R57). An image of an even number of bytes is itself. -/
def applyPolicy (p : OddImagePolicy) (image : List Byte) : Except FaultKind (List Byte) :=
  if image.length % 2 = 0 then .ok image
  else
    match p with
    | .fault => .error .loadOddLength
    | .dropTrailing => .ok image.dropLast
    | .padZero => .ok (image ++ [0])

/-- The words an image decodes to: the policy first, then the overflow check (R56, R57). -/
def imageWords (p : OddImagePolicy) (image : List Byte) : Except FaultKind (List Word) := do
  let bytes ← applyPolicy p image
  let ws := wordsOfBytes bytes
  if memWords < ws.length then .error .loadOverflow else .ok ws

/-- Construction and load (R242): Running with the image in Memory from address 0, or, all or nothing, Faulted with
FAULT_INFO (kind, pc 0, opcode none) and everything else as constructed (R243). -/
def boot (c : Config) (image : List Byte) : State :=
  match imageWords c.oddImagePolicy image with
  | .ok ws => setMem (storeWords ws 0 (State.init c).mem) (State.init c)
  | .error k => takeFault k none (State.init c)

/-- The numeric code of a kind (R200). -/
def faultCode : FaultKind → Nat
  | .invalidOperandCode => 1
  | .memoryOutOfRange => 2
  | .stackUnderflow => 3
  | .unknownOpcode => 4
  | .divisionByZero => 5
  | .loadOverflow => 6
  | .loadOddLength => 7
  | .stackOverflow => 8

/-- The exit status of a finished run (R215); a run that is not over has none
(DESIGN CHOICE, log entry 11; safe). -/
def exitStatus (s : State) : Option Nat :=
  match s.runState with
  | .running => none
  | .halted => some 0
  | .faulted => some s.config.faultExitCode

/-- FAULT_INFO as the host reads it: "valid only when RUN_STATE = Faulted" (`10_state.md` R35). -/
def faultReport (s : State) : Option FaultInfo :=
  match s.runState with
  | .faulted => s.fault
  | .running => none
  | .halted => none

end Sys2Proof.Machine
end

