-- ==== Sys2Proof/Safety.lean ====
section
/-! DEFINITION. The terms in which the claims are stated: which operand writes a register, which faults an opcode can
report, the fixed order of faults (`60_exceptions.md` R214), and the invariant of the machine. -/

namespace Sys2Proof.Machine

/-! ### Roles of the operands -/

/-- The role of an operand word (`30_encoding.md` R81). -/
inductive Role where
  | write
  | read
  deriving DecidableEq, Repr

/-- The format table of R81 by the opcode's number; `none` for the illegal opcodes of R88. -/
def roles (op : Word) : Option (List Role) :=
  match op.toNat with
  | 0 => some []
  | 1 => some [.write, .read]
  | 2 => some [.read]
  | 3 => some [.write]
  | 4 => some [.write, .read, .read]
  | 5 => some [.write, .read, .read]
  | 6 => some [.read]
  | 7 => some [.read, .read]
  | 8 => some [.read, .read]
  | 9 => some [.write, .read, .read]
  | 10 => some [.write, .read, .read]
  | 11 => some [.write, .read, .read]
  | 12 => some [.write, .read, .read]
  | 13 => some [.write, .read, .read]
  | 14 => some [.write, .read]
  | 15 => some [.write, .read]
  | 16 => some [.read, .read]
  | 17 => some [.read]
  | 18 => some []
  | 19 => some [.read]
  | 21 => some []
  | _ => none

/-- The word is within the valid codes of its role: 32768..32775 in a write position (R85), 0..32775 in a read
position (R83). -/
def roleAdmits : Role → Word → Bool
  | .write, w => decide (32768 ≤ w.toNat) && decide (w.toNat ≤ 32775)
  | .read, w => decide (w.toNat ≤ 32775)

/-- Every operand word, from word address `a` on, is within its role's valid codes. -/
def operandsAdmitted (m : Memory) : List Role → Nat → Bool
  | [], _ => true
  | r :: rs, a => roleAdmits r (readWord m a) && operandsAdmitted m rs (a + 1)

/-- Checks 1 to 4 of R214 in their order, read off Memory as R94 steps 1 to 4 do: the first one that fails, with the
opcode FAULT_INFO then holds. -/
def firstFault (s : State) : Option (FaultKind × Option Word) :=
  let p := s.pc.toNat
  let op := readWord s.mem p
  if 32767 < p then some (.memoryOutOfRange, none)
  else
    match roles op with
    | none => some (.unknownOpcode, some op)
    | some rs =>
      if 32767 < p + rs.length then some (.memoryOutOfRange, some op)
      else if operandsAdmitted s.mem rs (p + 1) then none
      else some (.invalidOperandCode, some op)

/-- Check 5 of R214, the operation's own: which kind which opcode can raise once its operands are decoded. -/
def ownCheck (op : Word) : FaultKind → Bool
  | .stackUnderflow => op = 3 || op = 18
  | .divisionByZero => op = 11
  | .memoryOutOfRange => op = 15 || op = 16
  | .stackOverflow => op = 2 || op = 17
  | .invalidOperandCode => false
  | .unknownOpcode => false
  | .loadOverflow => false
  | .loadOddLength => false

/-- The rows of R200: which pc and which opcode a fault of each kind reports. -/
def reportAllowed (f : FaultInfo) : Bool :=
  match f.kind, f.opcode with
  | .invalidOperandCode, some op => decide (0 < operandCount op)
  | .memoryOutOfRange, none => decide (32767 < f.pc.toNat)
  | .memoryOutOfRange, some op => decide (0 < operandCount op) && decide (f.pc.toNat ≤ 32767)
  | .stackUnderflow, some op => op = 3 || op = 18
  | .unknownOpcode, some op => op = 20 || decide (22 ≤ op.toNat)
  | .divisionByZero, some op => op = 11
  | .loadOverflow, none => f.pc = 0
  | .loadOddLength, none => f.pc = 0
  | .stackOverflow, some op => op = 2 || op = 17
  | .invalidOperandCode, none => false
  | .stackUnderflow, none => false
  | .unknownOpcode, none => false
  | .divisionByZero, none => false
  | .loadOverflow, some _ => false
  | .loadOddLength, some _ => false
  | .stackOverflow, none => false

/-! ### What an instruction may write -/

/-- The write-position operand of the 11 instructions that have one (`10_state.md` R23). -/
def destOf : Instr → Option Dst
  | .set a _ => some a
  | .pop a => some a
  | .eq a _ _ => some a
  | .gt a _ _ => some a
  | .add a _ _ => some a
  | .mult a _ _ => some a
  | .mod a _ _ => some a
  | .and a _ _ => some a
  | .or a _ _ => some a
  | .not a _ => some a
  | .rmem a _ => some a
  | .halt => none
  | .push _ => none
  | .jmp _ => none
  | .jt _ _ => none
  | .jf _ _ => none
  | .wmem _ _ => none
  | .call _ => none
  | .ret => none
  | .out _ => none
  | .inp => none
  | .noop => none
  | .illegal _ => none

/-! ### Clauses that many claims share -/

/-- "MemoryOutOfRange if any of p+1..p+n > 32767": the step of a running core whose opcode word is `op`. -/
def MissingOperandFaults (op : Word) (n : Nat) : Prop :=
  ∀ s : State, s.runState = .running → s.pc.toNat ≤ 32767 → readWord s.mem s.pc.toNat = op →
    32767 < s.pc.toNat + n → step s = .next (takeFault .memoryOutOfRange (some op) s)

/-- A step of a running core from a pc above 32767 raises MemoryOutOfRange with no opcode (`30_encoding.md` R94 step 1). -/
def PcPastMemoryFaults : Prop :=
  ∀ s : State, s.runState = .running → 32767 < s.pc.toNat → step s = .next (takeFault .memoryOutOfRange none s)

/-- The instruction raises InvalidOperandCode, reported with opcode `op`, in every state. -/
def InvalidOperandFaults (op : Word) (i : Instr) : Prop :=
  ∀ s : State, exec i s = .next (takeFault .invalidOperandCode (some op) s)

/-! ### The invariant -/

/-- What holds at reset, after any load, and after every step. -/
structure Inv (s : State) : Prop where
  /-- Memory is in canonical form, every cell within the 32768 words (`20_memory.md` R50). -/
  memWf : s.mem.wf = true
  /-- FAULT_EXIT_CODE is non-zero (`60_exceptions.md` R215). -/
  configWf : s.config.wf
  /-- A stack of finite capacity N holds at most N entries (`10_state.md` R38). -/
  stackFits : ∀ n, s.config.stackCapacity = some n → s.stack.length ≤ n
  /-- FAULT_INFO is there exactly when RUN_STATE is Faulted; before a fault it is absent by log entry 3. -/
  faultIff : s.runState = .faulted ↔ s.fault.isSome = true
  /-- FAULT_INFO.pc equals pc (`60_exceptions.md` R210). -/
  faultPc : ∀ f, s.fault = some f → f.pc = s.pc
  /-- FAULT_INFO is a row of `60_exceptions.md` R200. -/
  faultRow : ∀ f, s.fault = some f → reportAllowed f = true

end Sys2Proof.Machine
end

