-- ==== Sys2Proof/Certificates/Slice0/Obligations.lean ====
section
/-! DEFINITION. The statements for the provers, from the numbered rules of spec/. -/

open Sys2Proof Sys2Proof.Machine

/-! ### Reset and load -/

/-- `70_reset_and_hazards.md` R240, `10_state.md` R27, R28, R33, R36, R42: what construction leaves. FAULT_INFO is
left out, since the spec gives it no value. -/
def Obligations.ResetLeavesTheConstructedValues : Prop :=
  (∀ r : Reg, State.reset.regs[r] = 0) ∧
  (∀ a < 32768, readWord State.reset.mem a = 0) ∧
  State.reset.stack = [] ∧ State.reset.pc = 0 ∧ State.reset.output = [] ∧
  State.reset.runState = .running

/-- `20_memory.md` R55: the words of an even image of at most 32768 words stand in Memory from address 0, low byte
first, and every other word is 0; nothing else differs from construction (R242). -/
def Obligations.LoadPlacesLittleEndianPairs : Prop :=
  ∀ (c : Config) (image : List Byte), image.length % 2 = 0 → image.length ≤ 65536 →
    (∀ k < 32768, readWord (boot c image).mem k =
      if h : 2 * k + 1 < image.length then image[2 * k + 1] ++ image[2 * k] else 0) ∧
    { boot c image with mem := [] } = State.init c

/-- `20_memory.md` R56: more than 32768 words, counted after the policy of R57, is LoadOverflow; exactly 32768 words fill
all of Memory; the empty image leaves Memory all zero and halts at once. -/
def Obligations.OversizedImageIsRejected : Prop :=
  (∀ (c : Config) (image : List Byte), 65536 < image.length →
    (image.length % 2 = 0 ∨ c.oddImagePolicy = .padZero ∨ c.oddImagePolicy = .dropTrailing ∧ 65537 < image.length) →
    boot c image = { State.init c with
      runState := .faulted, fault := some { kind := .loadOverflow, pc := 0, opcode := none } }) ∧
  (∀ (c : Config) (image : List Byte) (h : image.length = 65536),
    (boot c image).runState = .running ∧
    ∀ k, (hk : k < 32768) → readWord (boot c image).mem k = image[2 * k + 1] ++ image[2 * k]) ∧
  (∀ c : Config, boot c [] = State.init c ∧
    step (boot c []) = .next { State.init c with runState := .halted })

/-- `20_memory.md` R57: the three values of ODD_IMAGE_POLICY. The overflow check follows the policy, because the
policies that load reduce to an even image. -/
def Obligations.OddImageFollowsThePolicy : Prop :=
  ∀ (c : Config) (image : List Byte), image.length % 2 = 1 →
    (c.oddImagePolicy = .fault → boot c image = { State.init c with
      runState := .faulted, fault := some { kind := .loadOddLength, pc := 0, opcode := none } }) ∧
    (c.oddImagePolicy = .dropTrailing → boot c image = boot c image.dropLast) ∧
    (c.oddImagePolicy = .padZero → boot c image = boot c (image ++ [0]))

/-- `70_reset_and_hazards.md` R243: a load that fails leaves Memory zero, registers, stack and OUTPUT at their reset
values, and no instruction executes. -/
def Obligations.FailedLoadRunsNothing : Prop :=
  ∀ (c : Config) (image : List Byte), (boot c image).runState = .faulted →
    (∃ k : FaultKind, (k = .loadOverflow ∨ k = .loadOddLength ∧ c.oddImagePolicy = .fault) ∧
      (boot c image).fault = some { kind := k, pc := 0, opcode := none }) ∧
    (∀ a < 32768, readWord (boot c image).mem a = 0) ∧
    (∀ r : Reg, (boot c image).regs[r] = 0) ∧
    (boot c image).stack = [] ∧ (boot c image).output = [] ∧
    ∀ t, step (boot c image) ≠ .next t

/-! ### Encoding -/

/-- `30_encoding.md` R80, R81, R87: a well-formed instruction's words decode to it, with every operand at every value
the encoding admits, whatever words follow. -/
def Obligations.DecodeOfEncodeIsTheInstruction : Prop :=
  ∀ (i : Instr) (rest : List Word), i.wf = true → decode (encode i ++ rest) = .ok (i, rest)

/-- `30_encoding.md` R80, R89: what the decoder reads is well-formed, and encoding it gives back exactly the words it
read; so no two instructions share words. -/
def Obligations.EncodeOfDecodeIsTheWords : Prop :=
  ∀ (ws rest : List Word) (i : Instr), decode ws = .ok (i, rest) →
    i.wf = true ∧ encode i ++ rest = ws ∧ (encode i).length = 1 + operandCount i.opcode

/-- `30_encoding.md` R81, R87: the opcode map, every row with its format. -/
def Obligations.OpcodeMapIsRead : Prop :=
  ∀ (wa wb wc : Word) (rest : List Word),
    decode (0 :: rest) = .ok (.halt, rest) ∧
    decode (1 :: wa :: wb :: rest) = .ok (.set (decodeDst wa) (decodeSrc wb), rest) ∧
    decode (2 :: wa :: rest) = .ok (.push (decodeSrc wa), rest) ∧
    decode (3 :: wa :: rest) = .ok (.pop (decodeDst wa), rest) ∧
    decode (4 :: wa :: wb :: wc :: rest) = .ok (.eq (decodeDst wa) (decodeSrc wb) (decodeSrc wc), rest) ∧
    decode (5 :: wa :: wb :: wc :: rest) = .ok (.gt (decodeDst wa) (decodeSrc wb) (decodeSrc wc), rest) ∧
    decode (6 :: wa :: rest) = .ok (.jmp (decodeSrc wa), rest) ∧
    decode (7 :: wa :: wb :: rest) = .ok (.jt (decodeSrc wa) (decodeSrc wb), rest) ∧
    decode (8 :: wa :: wb :: rest) = .ok (.jf (decodeSrc wa) (decodeSrc wb), rest) ∧
    decode (9 :: wa :: wb :: wc :: rest) = .ok (.add (decodeDst wa) (decodeSrc wb) (decodeSrc wc), rest) ∧
    decode (10 :: wa :: wb :: wc :: rest) = .ok (.mult (decodeDst wa) (decodeSrc wb) (decodeSrc wc), rest) ∧
    decode (11 :: wa :: wb :: wc :: rest) = .ok (.mod (decodeDst wa) (decodeSrc wb) (decodeSrc wc), rest) ∧
    decode (12 :: wa :: wb :: wc :: rest) = .ok (.and (decodeDst wa) (decodeSrc wb) (decodeSrc wc), rest) ∧
    decode (13 :: wa :: wb :: wc :: rest) = .ok (.or (decodeDst wa) (decodeSrc wb) (decodeSrc wc), rest) ∧
    decode (14 :: wa :: wb :: rest) = .ok (.not (decodeDst wa) (decodeSrc wb), rest) ∧
    decode (15 :: wa :: wb :: rest) = .ok (.rmem (decodeDst wa) (decodeSrc wb), rest) ∧
    decode (16 :: wa :: wb :: rest) = .ok (.wmem (decodeSrc wa) (decodeSrc wb), rest) ∧
    decode (17 :: wa :: rest) = .ok (.call (decodeSrc wa), rest) ∧
    decode (18 :: rest) = .ok (.ret, rest) ∧
    decode (19 :: wa :: rest) = .ok (.out (decodeSrc wa), rest) ∧
    decode (20 :: rest) = .ok (.inp, rest) ∧
    decode (21 :: rest) = .ok (.noop, rest)

/-- One instruction of each family, its words written out in binary from R21, R81 and R87, reads right. -/
def Obligations.WrittenOutWordsDecode : Prop :=
  decode [0b0000000000000001, 0b1000000000000010, 0b0111111111111111] = .ok (.set (.reg 2) (.lit 32767), []) ∧
  decode [0b0000000000000101, 0b1000000000000000, 0b1000000000000111, 0b0000000000000101] =
    .ok (.gt (.reg 0) (.reg 7) (.lit 5), []) ∧
  decode [0b0000000000000111, 0b1000000000000001, 0b0000000000001010] = .ok (.jt (.reg 1) (.lit 10), []) ∧
  decode [0b0000000000001001, 0b1000000000000011, 0b1000000000000100, 0b0000000000000001] =
    .ok (.add (.reg 3) (.reg 4) (.lit 1), []) ∧
  decode [0b0000000000010000, 0b0000000011001000, 0b1000000000000000] = .ok (.wmem (.lit 200) (.reg 0), []) ∧
  decode [0b0000000000010011, 0b1000000000001000] = .ok (.out (.invalid 32776), []) ∧
  decode [0b0000000000010101] = .ok (.noop, [])

/-- `30_encoding.md` R83: the Operand Resolver on a raw word, with "current value of Register[raw−32768]". -/
def Obligations.ResolverReadsLiteralsAndRegisters : Prop :=
  ∀ (s : State) (raw : Word),
    (raw.toNat ≤ 32767 → resolve s (decodeSrc raw) = .ok raw) ∧
    (∀ r : Reg, raw.toNat = 32768 + r.val → resolve s (decodeSrc raw) = .ok s.regs[r]) ∧
    (32776 ≤ raw.toNat → resolve s (decodeSrc raw) = .error .invalidOperandCode)

/-- `30_encoding.md` R84: the same by the bits of the word, a demultiplexer on bits 15 and 14:3. -/
def Obligations.ResolverIsTheBitDemultiplexer : Prop :=
  ∀ (s : State) (raw : Word),
    resolve s (decodeSrc raw) =
      if raw.getLsbD 15 = false then .ok ((raw.extractLsb' 0 15).setWidth 16)
      else if raw.extractLsb' 3 12 = 0 then .ok s.regs[(raw.extractLsb' 0 3).toFin]
      else .error .invalidOperandCode

/-- `30_encoding.md` R85: the write-operand decode on a raw word. -/
def Obligations.WriteOperandNamesARegister : Prop :=
  ∀ raw : Word,
    (∀ r : Reg, raw.toNat = 32768 + r.val → regIndex (decodeDst raw) = .ok r) ∧
    (raw.toNat ≤ 32767 ∨ 32776 ≤ raw.toNat → regIndex (decodeDst raw) = .error .invalidOperandCode)

/-! ### The cycle -/

/-- `30_encoding.md` R94: when the words at the pc decode to a well-formed instruction, the step of a running core is
exec of it at the same state, pc still at the opcode (`00_scope.md` R10), and nothing around it. -/
def Obligations.StepRunsTheDecodedInstruction : Prop :=
  ∀ (s : State) (i : Instr) (rest : List Word), s.runState = .running →
    decode (fetchWindow s) = .ok (i, rest) → i.wf = true → step s = exec i s

/-- `30_encoding.md` R94 on an instruction laid out in Memory: if the words of a well-formed instruction stand at the
pc and fit below 32768, the step of a running core is exec of it. -/
def Obligations.StepRunsTheWordsAtThePc : Prop :=
  ∀ (s : State) (i : Instr), s.runState = .running → i.wf = true →
    s.pc.toNat + (encode i).length ≤ 32768 →
    (∀ k, (h : k < (encode i).length) → readWord s.mem (s.pc.toNat + k) = (encode i)[k]) →
    step s = exec i s

/-- `60_exceptions.md` R214 and `30_encoding.md` R94: a step reports the first failing check in the fixed order; when
none of checks 1 to 4 fails, a legal instruction executes, and a fault it then raises is its opcode's own check. -/
def Obligations.FaultsFollowTheFixedOrder : Prop :=
  ∀ s : State, s.runState = .running →
    (∀ k op, firstFault s = some (k, op) → step s = .next (takeFault k op s)) ∧
    (firstFault s = none →
      ∃ i rest, decode (fetchWindow s) = .ok (i, rest) ∧ i.legal = true ∧ step s = exec i s ∧
        ∀ t, step s = .next t → t.runState = .faulted →
          ∃ k, ownCheck i.opcode k = true ∧ t = takeFault k (some i.opcode) s)

/-- `60_exceptions.md` R202 for fetches: a pc above 32767 reports opcode none; an operand word above 32767 reports
the opcode. -/
def Obligations.FetchPastMemoryFaults : Prop :=
  (∀ s : State, s.runState = .running → 32767 < s.pc.toNat →
    step s = .next { s with
      runState := .faulted, fault := some { kind := .memoryOutOfRange, pc := s.pc, opcode := none } }) ∧
  (∀ (s : State) (rs : List Role), s.runState = .running → s.pc.toNat ≤ 32767 →
    roles (readWord s.mem s.pc.toNat) = some rs → 32767 < s.pc.toNat + rs.length →
    step s = .next { s with
      runState := .faulted, fault := some { kind := .memoryOutOfRange, pc := s.pc, opcode := some (readWord s.mem s.pc.toNat) } })

/-- `30_encoding.md` R88, `60_exceptions.md` R204: an opcode word of 20 or 22..65535 raises UnknownOpcode with that
word, even as the last word of Memory: no operand word is fetched. -/
def Obligations.UnknownOpcodeFaultsAtFetch : Prop :=
  ∀ s : State, s.runState = .running → s.pc.toNat ≤ 32767 →
    (readWord s.mem s.pc.toNat = 20 ∨ 22 ≤ (readWord s.mem s.pc.toNat).toNat) →
    step s = .next { s with
      runState := .faulted, fault := some { kind := .unknownOpcode, pc := s.pc, opcode := some (readWord s.mem s.pc.toNat) } }

/-- `30_encoding.md` R98, `60_exceptions.md` R223: a step is defined exactly when RUN_STATE is Running; a running core
is never stuck and never refused. -/
def Obligations.StepIsDefinedExactlyWhenRunning : Prop :=
  ∀ s : State, (∃ t, step s = .next t) ↔ s.runState = .running

/-- `30_encoding.md` R97: where pc is after an instruction that completes without a fault, without wrap-around. -/
def Obligations.PcAfterACompletedInstruction : Prop :=
  ∀ (s t : State) (i : Instr) (rest : List Word), s.runState = .running →
    decode (fetchWindow s) = .ok (i, rest) → step s = .next t → t.runState ≠ .faulted →
    match i with
    | .halt => t.pc = s.pc
    | .jmp a => resolve s a = .ok t.pc
    | .call a => resolve s a = .ok t.pc
    | .ret => s.stack.getLast? = some t.pc
    | .jt a b => ∃ va vb, resolve s a = .ok va ∧ resolve s b = .ok vb ∧
        (va ≠ 0 → t.pc = vb) ∧ (va = 0 → t.pc.toNat = s.pc.toNat + 3)
    | .jf a b => ∃ va vb, resolve s a = .ok va ∧ resolve s b = .ok vb ∧
        (va = 0 → t.pc = vb) ∧ (va ≠ 0 → t.pc.toNat = s.pc.toNat + 3)
    | j => t.pc.toNat = s.pc.toNat + 1 + operandCount j.opcode ∧ t.pc.toNat ≤ 32768

/-! ### The instructions -/

/-- `40_machine_control.md` R110: pc stays at the HALT; the word 0 is HALT, so a run that comes to a word no load wrote
halts there. -/
def Obligations.HaltEndsTheRun : Prop :=
  (∀ rest, decode (0 :: rest) = .ok (.halt, rest)) ∧
  (∀ s : State, exec .halt s = .next { s with runState := .halted } ∧
    exitStatus { s with runState := .halted } = some 0 ∧
    ∀ t, step { s with runState := .halted } ≠ .next t) ∧
  (∀ s : State, s.runState = .running → s.pc.toNat ≤ 32767 → readWord s.mem s.pc.toNat = 0 →
    step s = .next { s with runState := .halted }) ∧
  ∀ a, readWord State.reset.mem a = 0

/-- `40_machine_control.md` R111. -/
def Obligations.NoopOnlyAdvancesPc : Prop :=
  (∀ rest, decode (21 :: rest) = .ok (.noop, rest)) ∧
  (∀ s : State, exec .noop s = .next { s with pc := s.pc + 1 }) ∧
  (∀ s : State, s.runState = .running → s.pc = 32767 → readWord s.mem 32767 = 21 →
    step s = .next { s with pc := 32768 } ∧
    step { s with pc := 32768 } = .next (takeFault .memoryOutOfRange none { s with pc := 32768 }))

/-- `41_register_stack.md` R115. -/
def Obligations.SetCopiesTheValue : Prop :=
  (∀ wa wb rest, decode (1 :: wa :: wb :: rest) = .ok (.set (decodeDst wa) (decodeSrc wb), rest)) ∧
  MissingOperandFaults 1 2 ∧
  (∀ a b, a.legal = false ∨ b.legal = false → InvalidOperandFaults 1 (.set a b)) ∧
  (∀ s a b r vb, regIndex a = .ok r → resolve s b = .ok vb →
    exec (.set a b) s = .next { s with regs := s.regs.set r vb, pc := s.pc + 3 })

/-- `41_register_stack.md` R116, with `10_state.md` R38 for a stack of finite capacity. -/
def Obligations.PushAppendsAtTheTop : Prop :=
  (∀ wa rest, decode (2 :: wa :: rest) = .ok (.push (decodeSrc wa), rest)) ∧
  MissingOperandFaults 2 1 ∧
  (∀ a, a.legal = false → InvalidOperandFaults 2 (.push a)) ∧
  (∀ s a va, resolve s a = .ok va → (∀ n, s.config.stackCapacity = some n → s.stack.length < n) →
    exec (.push a) s = .next { s with stack := s.stack ++ [va], pc := s.pc + 2 }) ∧
  (∀ s a va n, resolve s a = .ok va → s.config.stackCapacity = some n → n ≤ s.stack.length →
    exec (.push a) s = .next (takeFault .stackOverflow (some 2) s))

/-- `41_register_stack.md` R117: a is decoded before the stack is looked at; a POP right after a PUSH yields the pushed
value and leaves the stack as it was. -/
def Obligations.PopMovesTheTopToARegister : Prop :=
  (∀ wa rest, decode (3 :: wa :: rest) = .ok (.pop (decodeDst wa), rest)) ∧
  MissingOperandFaults 3 1 ∧
  (∀ a, a.legal = false → InvalidOperandFaults 3 (.pop a)) ∧
  (∀ s a r l v, regIndex a = .ok r → s.stack = l ++ [v] →
    exec (.pop a) s = .next { s with regs := s.regs.set r v, stack := l, pc := s.pc + 2 }) ∧
  (∀ s a r, regIndex a = .ok r → s.stack = [] →
    exec (.pop a) s = .next (takeFault .stackUnderflow (some 3) s)) ∧
  (∀ s b a r v, resolve s b = .ok v → regIndex a = .ok r →
    (∀ n, s.config.stackCapacity = some n → s.stack.length < n) →
    ∃ t u, exec (.push b) s = .next t ∧ exec (.pop a) t = .next u ∧ u.regs[r] = v ∧ u.stack = s.stack)

/-- `42_compare.md` R120. -/
def Obligations.EqWritesWhetherEqual : Prop :=
  (∀ wa wb wc rest, decode (4 :: wa :: wb :: wc :: rest) =
    .ok (.eq (decodeDst wa) (decodeSrc wb) (decodeSrc wc), rest)) ∧
  MissingOperandFaults 4 3 ∧
  (∀ a b c, a.legal = false ∨ b.legal = false ∨ c.legal = false → InvalidOperandFaults 4 (.eq a b c)) ∧
  (∀ s a b c r vb vc, regIndex a = .ok r → resolve s b = .ok vb → resolve s c = .ok vc →
    exec (.eq a b c) s =
      .next { s with regs := s.regs.set r (if vb.toNat = vc.toNat then 1 else 0), pc := s.pc + 4 })

/-- `42_compare.md` R121. -/
def Obligations.GtWritesWhetherGreaterUnsigned : Prop :=
  (∀ wa wb wc rest, decode (5 :: wa :: wb :: wc :: rest) =
    .ok (.gt (decodeDst wa) (decodeSrc wb) (decodeSrc wc), rest)) ∧
  MissingOperandFaults 5 3 ∧
  (∀ a b c, a.legal = false ∨ b.legal = false ∨ c.legal = false → InvalidOperandFaults 5 (.gt a b c)) ∧
  (∀ s a b c r vb vc, regIndex a = .ok r → resolve s b = .ok vb → resolve s c = .ok vc →
    exec (.gt a b c) s =
      .next { s with regs := s.regs.set r (if vc.toNat < vb.toNat then 1 else 0), pc := s.pc + 4 })

/-- `43_control_flow.md` R125: the target is not checked; a step from a target above 32767 faults. -/
def Obligations.JmpSetsPc : Prop :=
  (∀ wa rest, decode (6 :: wa :: rest) = .ok (.jmp (decodeSrc wa), rest)) ∧
  MissingOperandFaults 6 1 ∧
  (∀ a, a.legal = false → InvalidOperandFaults 6 (.jmp a)) ∧
  (∀ s a va, resolve s a = .ok va → exec (.jmp a) s = .next { s with pc := va }) ∧
  PcPastMemoryFaults

/-- `43_control_flow.md` R126: a bad b faults even when the branch is not taken. -/
def Obligations.JtJumpsWhenNonZero : Prop :=
  (∀ wa wb rest, decode (7 :: wa :: wb :: rest) = .ok (.jt (decodeSrc wa) (decodeSrc wb), rest)) ∧
  MissingOperandFaults 7 2 ∧
  (∀ a b, a.legal = false ∨ b.legal = false → InvalidOperandFaults 7 (.jt a b)) ∧
  (∀ s a b va vb, resolve s a = .ok va → resolve s b = .ok vb →
    exec (.jt a b) s = .next { s with pc := if va ≠ 0 then vb else s.pc + 3 })

/-- `43_control_flow.md` R127. -/
def Obligations.JfJumpsWhenZero : Prop :=
  (∀ wa wb rest, decode (8 :: wa :: wb :: rest) = .ok (.jf (decodeSrc wa) (decodeSrc wb), rest)) ∧
  MissingOperandFaults 8 2 ∧
  (∀ a b, a.legal = false ∨ b.legal = false → InvalidOperandFaults 8 (.jf a b)) ∧
  (∀ s a b va vb, resolve s a = .ok va → resolve s b = .ok vb →
    exec (.jf a b) s = .next { s with pc := if va = 0 then vb else s.pc + 3 })

/-- `43_control_flow.md` R128: a RET that finds the stack and pc as CALL left them goes back to pc + 2. -/
def Obligations.CallPushesTheReturnAddress : Prop :=
  (∀ wa rest, decode (17 :: wa :: rest) = .ok (.call (decodeSrc wa), rest)) ∧
  MissingOperandFaults 17 1 ∧
  (∀ a, a.legal = false → InvalidOperandFaults 17 (.call a)) ∧
  (∀ s a va, resolve s a = .ok va → (∀ n, s.config.stackCapacity = some n → s.stack.length < n) →
    exec (.call a) s = .next { s with stack := s.stack ++ [s.pc + 2], pc := va }) ∧
  (∀ s a va n, resolve s a = .ok va → s.config.stackCapacity = some n → n ≤ s.stack.length →
    exec (.call a) s = .next (takeFault .stackOverflow (some 17) s)) ∧
  (∀ s a v, resolve s a = .ok v → (∀ n, s.config.stackCapacity = some n → s.stack.length < n) →
    ∃ t, exec (.call a) s = .next t ∧ t.pc = v ∧ exec .ret t = .next { s with pc := s.pc + 2 }) ∧
  PcPastMemoryFaults

/-- `43_control_flow.md` R129: an empty stack is a fault, not a halt; a step from a popped value above 32767
faults. -/
def Obligations.RetPopsThePc : Prop :=
  (∀ rest, decode (18 :: rest) = .ok (.ret, rest)) ∧
  (∀ s l v, s.stack = l ++ [v] → exec .ret s = .next { s with stack := l, pc := v }) ∧
  (∀ s, s.stack = [] → exec .ret s = .next (takeFault .stackUnderflow (some 18) s) ∧
    exitStatus (takeFault .stackUnderflow (some 18) s) = some s.config.faultExitCode) ∧
  PcPastMemoryFaults

/-- `44_arithmetic_logic.md` R135. -/
def Obligations.AddReducesTheSum : Prop :=
  (∀ wa wb wc rest, decode (9 :: wa :: wb :: wc :: rest) =
    .ok (.add (decodeDst wa) (decodeSrc wb) (decodeSrc wc), rest)) ∧
  MissingOperandFaults 9 3 ∧
  (∀ a b c, a.legal = false ∨ b.legal = false ∨ c.legal = false → InvalidOperandFaults 9 (.add a b c)) ∧
  (∀ s a b c r vb vc, regIndex a = .ok r → resolve s b = .ok vb → resolve s c = .ok vc →
    ∃ w : Word, w.toNat = (vb.toNat + vc.toNat) % 32768 ∧
      exec (.add a b c) s = .next { s with regs := s.regs.set r w, pc := s.pc + 4 })

/-- `44_arithmetic_logic.md` R136. -/
def Obligations.MultReducesTheProduct : Prop :=
  (∀ wa wb wc rest, decode (10 :: wa :: wb :: wc :: rest) =
    .ok (.mult (decodeDst wa) (decodeSrc wb) (decodeSrc wc), rest)) ∧
  MissingOperandFaults 10 3 ∧
  (∀ a b c, a.legal = false ∨ b.legal = false ∨ c.legal = false → InvalidOperandFaults 10 (.mult a b c)) ∧
  (∀ s a b c r vb vc, regIndex a = .ok r → resolve s b = .ok vb → resolve s c = .ok vc →
    ∃ w : Word, w.toNat = (vb.toNat * vc.toNat) % 32768 ∧
      exec (.mult a b c) s = .next { s with regs := s.regs.set r w, pc := s.pc + 4 })

/-- `44_arithmetic_logic.md` R137: every operand is decoded before the divisor is tested. -/
def Obligations.ModGivesTheRemainderOrFaults : Prop :=
  (∀ wa wb wc rest, decode (11 :: wa :: wb :: wc :: rest) =
    .ok (.mod (decodeDst wa) (decodeSrc wb) (decodeSrc wc), rest)) ∧
  MissingOperandFaults 11 3 ∧
  (∀ a b c, a.legal = false ∨ b.legal = false ∨ c.legal = false → InvalidOperandFaults 11 (.mod a b c)) ∧
  (∀ s a b c r vb vc, regIndex a = .ok r → resolve s b = .ok vb → resolve s c = .ok vc → vc ≠ 0 →
    ∃ w : Word, w.toNat = vb.toNat % vc.toNat ∧
      exec (.mod a b c) s = .next { s with regs := s.regs.set r w, pc := s.pc + 4 }) ∧
  (∀ s a b c r vb, regIndex a = .ok r → resolve s b = .ok vb → resolve s c = .ok 0 →
    exec (.mod a b c) s = .next (takeFault .divisionByZero (some 11) s))

/-- `44_arithmetic_logic.md` R138: bit by bit on all 16 bits. -/
def Obligations.AndIsBitwiseOnSixteenBits : Prop :=
  (∀ wa wb wc rest, decode (12 :: wa :: wb :: wc :: rest) =
    .ok (.and (decodeDst wa) (decodeSrc wb) (decodeSrc wc), rest)) ∧
  MissingOperandFaults 12 3 ∧
  (∀ a b c, a.legal = false ∨ b.legal = false ∨ c.legal = false → InvalidOperandFaults 12 (.and a b c)) ∧
  (∀ s a b c r vb vc, regIndex a = .ok r → resolve s b = .ok vb → resolve s c = .ok vc →
    ∃ w : Word, (∀ k < 16, w.getLsbD k = (vb.getLsbD k && vc.getLsbD k)) ∧
      exec (.and a b c) s = .next { s with regs := s.regs.set r w, pc := s.pc + 4 })

/-- `44_arithmetic_logic.md` R139: bit by bit on all 16 bits. -/
def Obligations.OrIsBitwiseOnSixteenBits : Prop :=
  (∀ wa wb wc rest, decode (13 :: wa :: wb :: wc :: rest) =
    .ok (.or (decodeDst wa) (decodeSrc wb) (decodeSrc wc), rest)) ∧
  MissingOperandFaults 13 3 ∧
  (∀ a b c, a.legal = false ∨ b.legal = false ∨ c.legal = false → InvalidOperandFaults 13 (.or a b c)) ∧
  (∀ s a b c r vb vc, regIndex a = .ok r → resolve s b = .ok vb → resolve s c = .ok vc →
    ∃ w : Word, (∀ k < 16, w.getLsbD k = (vb.getLsbD k || vc.getLsbD k)) ∧
      exec (.or a b c) s = .next { s with regs := s.regs.set r w, pc := s.pc + 4 })

/-- `44_arithmetic_logic.md` R140: the complement of bits 14:0, bit 15 always 0; done twice it gives back bits 14:0. -/
def Obligations.NotComplementsFifteenBits : Prop :=
  (∀ wa wb rest, decode (14 :: wa :: wb :: rest) = .ok (.not (decodeDst wa) (decodeSrc wb), rest)) ∧
  MissingOperandFaults 14 2 ∧
  (∀ a b, a.legal = false ∨ b.legal = false → InvalidOperandFaults 14 (.not a b)) ∧
  (∀ s a b r vb, regIndex a = .ok r → resolve s b = .ok vb →
    ∃ w : Word, w.toNat = 32767 - vb.toNat % 32768 ∧ w.getLsbD 15 = false ∧
      (∀ k < 15, w.getLsbD k = !vb.getLsbD k) ∧
      exec (.not a b) s = .next { s with regs := s.regs.set r w, pc := s.pc + 3 }) ∧
  (∀ (s : State) (q r : Reg), ∃ t u, exec (.not (.reg r) (.reg q)) s = .next t ∧
    exec (.not (.reg r) (.reg r)) t = .next u ∧ u.regs[r].toNat = s.regs[q].toNat % 32768)

/-- `45_memory_access.md` R145: the raw word, not resolved. -/
def Obligations.RmemCopiesAMemoryWord : Prop :=
  (∀ wa wb rest, decode (15 :: wa :: wb :: rest) = .ok (.rmem (decodeDst wa) (decodeSrc wb), rest)) ∧
  MissingOperandFaults 15 2 ∧
  (∀ a b, a.legal = false ∨ b.legal = false → InvalidOperandFaults 15 (.rmem a b)) ∧
  (∀ s a b r addr, regIndex a = .ok r → resolve s b = .ok addr → addr.toNat ≤ 32767 →
    exec (.rmem a b) s =
      .next { s with regs := s.regs.set r (readWord s.mem addr.toNat), pc := s.pc + 3 }) ∧
  (∀ s a b r addr, regIndex a = .ok r → resolve s b = .ok addr → 32767 < addr.toNat →
    exec (.rmem a b) s = .next (takeFault .memoryOutOfRange (some 15) s))

/-- `45_memory_access.md` R146, and `20_memory.md` R52: the addressed word changes, and no other; so no byte of
Memory changes but the two of that word. -/
def Obligations.WmemStoresOneWord : Prop :=
  (∀ wa wb rest, decode (16 :: wa :: wb :: rest) = .ok (.wmem (decodeSrc wa) (decodeSrc wb), rest)) ∧
  MissingOperandFaults 16 2 ∧
  (∀ a b, a.legal = false ∨ b.legal = false → InvalidOperandFaults 16 (.wmem a b)) ∧
  (∀ s a b addr v, s.mem.wf = true → resolve s a = .ok addr → resolve s b = .ok v → addr.toNat ≤ 32767 →
    ∃ m, exec (.wmem a b) s = .next { s with mem := m, pc := s.pc + 3 } ∧
      readWord m addr.toNat = v ∧
      (∀ k, k ≠ addr.toNat → readWord m k = readWord s.mem k) ∧
      (∀ n, n ≠ 2 * addr.toNat → n ≠ 2 * addr.toNat + 1 → readByte m n = readByte s.mem n)) ∧
  (∀ s a b addr v, resolve s a = .ok addr → resolve s b = .ok v → 32767 < addr.toNat →
    exec (.wmem a b) s = .next (takeFault .memoryOutOfRange (some 16) s))

/-- `46_output_input.md` R150. -/
def Obligations.OutEmitsTheLowByte : Prop :=
  (∀ wa rest, decode (19 :: wa :: rest) = .ok (.out (decodeSrc wa), rest)) ∧
  MissingOperandFaults 19 1 ∧
  (∀ a, a.legal = false → InvalidOperandFaults 19 (.out a)) ∧
  (∀ s a va, resolve s a = .ok va →
    ∃ b : Byte, b.toNat = va.toNat % 256 ∧
      exec (.out a) s = .next { s with output := s.output ++ [b], pc := s.pc + 2 })

/-- `46_output_input.md` R151, `30_encoding.md` R88: the rows IN and (illegal) have one effect, the fault entry of
UnknownOpcode with their own word as opcode. -/
def Obligations.InAndIllegalRaiseUnknownOpcode : Prop :=
  (∀ rest, decode (20 :: rest) = .ok (.inp, rest)) ∧
  (∀ (op : Word) (rest : List Word), 22 ≤ op.toNat → decode (op :: rest) = .ok (.illegal op, rest)) ∧
  (∀ s : State, exec .inp s = .next { s with
    runState := .faulted, fault := some { kind := .unknownOpcode, pc := s.pc, opcode := some 20 } }) ∧
  (∀ (s : State) (op : Word), exec (.illegal op) s = .next { s with
    runState := .faulted, fault := some { kind := .unknownOpcode, pc := s.pc, opcode := some op } })

/-! ### Laws of several instructions -/

/-- `20_memory.md` R64, `45_memory_access.md`: what WMEM wrote, RMEM of the same address then reads. -/
def Obligations.RmemAfterWmemReadsTheWord : Prop :=
  ∀ (s : State) (a b addr' : Src) (d : Dst) (r : Reg) (addr v : Word),
    s.mem.wf = true → resolve s a = .ok addr → resolve s b = .ok v → addr.toNat ≤ 32767 →
    resolve s addr' = .ok addr → regIndex d = .ok r →
    ∃ t u, exec (.wmem a b) s = .next t ∧ exec (.rmem d addr') t = .next u ∧ u.regs[r] = v

/-- `20_memory.md` R68: a fetch sees an earlier WMEM at once: the next opcode fetched from the address written is the
word written, and a fetch from an address whose words were not written is as before. -/
def Obligations.FetchSeesAnEarlierWmem : Prop :=
  ∀ (s : State) (a b : Src) (addr v : Word),
    s.mem.wf = true → resolve s a = .ok addr → resolve s b = .ok v → addr.toNat ≤ 32767 →
    ∃ t, exec (.wmem a b) s = .next t ∧
      (fetchWindow { t with pc := addr }).head? = some v ∧
      ∀ p : Word, addr.toNat < p.toNat ∨ p.toNat + 4 ≤ addr.toNat →
        fetchWindow { t with pc := p } = fetchWindow { s with pc := p }

/-- `44_arithmetic_logic.md` R134, `10_state.md` R24: when every register holds a Literal, no instruction but RMEM and
POP puts anything else into one. -/
def Obligations.LiteralsStayLiteralsButForRmemAndPop : Prop :=
  ∀ (i : Instr) (s t : State), (∀ r : Reg, s.regs[r].toNat ≤ 32767) → exec i s = .next t →
    (∀ a b, i ≠ .rmem a b) → (∀ a, i ≠ .pop a) → ∀ r : Reg, t.regs[r].toNat ≤ 32767

/-! ### Frames -/

/-- `10_state.md` R23: a register changes only if a write-position operand of one of the 11 instructions names it, and
only when the instruction completes. -/
def Obligations.OnlyTheDestinationRegisterChanges : Prop :=
  ∀ (i : Instr) (s t : State) (r : Reg), exec i s = .next t → t.regs[r] ≠ s.regs[r] →
    destOf i = some (.reg r) ∧ t.runState = s.runState ∧ t.fault = s.fault

/-- `20_memory.md` R50, R52: Memory changes only by WMEM, and only the two bytes of the word at the address its operand
a resolves to. -/
def Obligations.OnlyWmemChangesMemory : Prop :=
  ∀ (i : Instr) (s t : State) (n : Nat), exec i s = .next t → readByte t.mem n ≠ readByte s.mem n →
    ∃ a b addr, i = .wmem a b ∧ resolve s a = .ok addr ∧ addr.toNat ≤ 32767 ∧
      (n = 2 * addr.toNat ∨ n = 2 * addr.toNat + 1)

/-- `10_state.md` R39: only PUSH, POP, CALL and RET reach the stack, each at its top. -/
def Obligations.OnlyFourInstructionsReachTheStack : Prop :=
  ∀ (i : Instr) (s t : State), exec i s = .next t → t.stack ≠ s.stack →
    ((∃ a, i = .push a ∧ ∃ v, resolve s a = .ok v ∧ t.stack = s.stack ++ [v]) ∨
     (∃ a, i = .call a ∧ t.stack = s.stack ++ [s.pc + 2])) ∨
    (((∃ a, i = .pop a) ∨ i = .ret) ∧ ∃ v, s.stack = t.stack ++ [v])

/-- `10_state.md` R33: OUTPUT starts empty, only OUT appends to it, one byte at its end, and nothing is ever taken away
or changed, a fault included. -/
def Obligations.OutputIsAppendOnly : Prop :=
  State.reset.output = [] ∧
  ∀ (i : Instr) (s t : State), exec i s = .next t →
    t.output = s.output ∨
    ∃ a v, i = .out a ∧ resolve s a = .ok v ∧ t.output = s.output ++ [v.extractLsb' 0 8]

/-- `10_state.md` R34, R35: RUN_STATE moves to Halted by HALT alone and to Faulted with a fault entry alone; FAULT_INFO
is written by a fault entry alone. No step changes the configuration (log entry 2). -/
def Obligations.RunStateMovesByHaltOrFaultOnly : Prop :=
  ∀ s t : State, step s = .next t →
    s.runState = .running ∧ t.config = s.config ∧
    ((t.runState = .running ∧ t.fault = s.fault) ∨
     (t.runState = .halted ∧ t.fault = s.fault ∧ s.pc.toNat ≤ 32767 ∧ readWord s.mem s.pc.toNat = 0) ∨
     (t.runState = .faulted ∧ ∃ k op, t = takeFault k op s))

/-! ### Whole-machine rules -/

/-- `60_exceptions.md` R210, `30_encoding.md` R96: a step that enters Faulted changes RUN_STATE and FAULT_INFO and
nothing else; FAULT_INFO.pc is the pc, and its opcode is none only when the opcode could not be fetched. -/
def Obligations.FaultEntryChangesNothingElse : Prop :=
  ∀ s t : State, step s = .next t → t.runState = .faulted →
    ∃ k op, t = { s with runState := .faulted, fault := some { kind := k, pc := s.pc, opcode := op } } ∧
      (op = none ↔ 32767 < s.pc.toNat) ∧
      (s.pc.toNat ≤ 32767 → op = some (readWord s.mem s.pc.toNat))

/-- `60_exceptions.md` R200: every fault a step enters is a row of the table of kinds: its opcode and pc are ones the
table gives for its kind. -/
def Obligations.FaultReportIsARowOfTheTable : Prop :=
  ∀ s t : State, step s = .next t → t.runState = .faulted → ∃ f, t.fault = some f ∧ reportAllowed f = true

/-- The invariant of Safety.lean is kept by every step, from every state that has it. -/
def Obligations.StepKeepsTheInvariant : Prop :=
  ∀ s t : State, Inv s → step s = .next t → Inv t

/-- The invariant holds at reset. -/
def Obligations.ResetHasTheInvariant : Prop := Inv State.reset

/-- The invariant holds after any load, under every configuration with a non-zero FAULT_EXIT_CODE. -/
def Obligations.BootHasTheInvariant : Prop :=
  ∀ (c : Config) (image : List Byte), c.wf → Inv (boot c image)

/-- `10_state.md` R41, R33: OUTPUT "which the program cannot read back": what was emitted before has no influence on a
step. -/
def Obligations.OutputIsNeverReadBack : Prop :=
  ∀ (s t : State) (o : List Byte), step s = .next t →
    step { s with output := o ++ s.output } = .next { t with output := o ++ t.output }

/-- `10_state.md` R39: "no instruction reads an entry below the top": on an unbounded stack, entries below those a
completed step used have no influence on it. -/
def Obligations.EntriesBelowTheTopAreNeverRead : Prop :=
  ∀ (s t : State) (base : List Word), s.config.stackCapacity = none → step s = .next t →
    t.runState ≠ .faulted →
    step { s with stack := base ++ s.stack } = .next { t with stack := base ++ t.stack }

/-- `10_state.md` R35: FAULT_INFO is read by no step, so what it holds before a fault (log entry 3) has no influence
on a run. -/
def Obligations.FaultInfoIsNeverRead : Prop :=
  ∀ (s t : State) (f : Option FaultInfo), step s = .next t →
    step { s with fault := f } = .next (if t.runState = .faulted then t else { t with fault := f })

/-- `60_exceptions.md` R215: the exit status of a finished run. -/
def Obligations.ExitStatusTellsHaltFromFault : Prop :=
  ∀ s : State, (s.runState = .halted → exitStatus s = some 0) ∧
    (s.runState = .faulted → exitStatus s = some s.config.faultExitCode) ∧
    (Inv s → (exitStatus s = some 0 ↔ s.runState = .halted))
end

