-- ==== Sys2Proof/Laws/Decode.lean ====
section
/-! SUPPORT. The operand classes and the formats: what decoding a word gives, and that it undoes encoding. -/

namespace Sys2Proof

theorem decodeSrc_lit {raw : Word} (h : raw.toNat ≤ 32767) : decodeSrc raw = .lit (raw.setWidth 15) := by
  simp [decodeSrc, h]

theorem decodeSrc_reg {raw : Word} {r : Reg} (h : raw.toNat = 32768 + r.val) : decodeSrc raw = .reg r := by
  have hr := r.isLt
  have e : (⟨raw.toNat - 32768, by omega⟩ : Reg) = r := Fin.ext (by simp [h])
  simp only [decodeSrc, show ¬raw.toNat ≤ 32767 by omega, show raw.toNat ≤ 32775 by omega, if_false, dif_pos]
  rw [e]

theorem decodeSrc_invalid {raw : Word} (h : 32776 ≤ raw.toNat) : decodeSrc raw = .invalid raw := by
  simp [decodeSrc, show ¬raw.toNat ≤ 32767 by omega, show ¬raw.toNat ≤ 32775 by omega]

theorem decodeDst_reg {raw : Word} {r : Reg} (h : raw.toNat = 32768 + r.val) : decodeDst raw = .reg r := by
  have hr := r.isLt
  have e : (⟨raw.toNat - 32768, by omega⟩ : Reg) = r := Fin.ext (by simp [h])
  simp only [decodeDst, show 32768 ≤ raw.toNat ∧ raw.toNat ≤ 32775 by omega, dif_pos, and_self]
  rw [e]

theorem decodeDst_invalid {raw : Word} (h : raw.toNat ≤ 32767 ∨ 32776 ≤ raw.toNat) : decodeDst raw = .invalid raw := by
  simp [decodeDst, show ¬(32768 ≤ raw.toNat ∧ raw.toNat ≤ 32775) by omega]

/-- The three classes of a read-position word (R84). -/
theorem word_cases (raw : Word) :
    raw.toNat ≤ 32767 ∨ (∃ r : Reg, raw.toNat = 32768 + r.val) ∨ 32776 ≤ raw.toNat := by
  by_cases h : raw.toNat ≤ 32767
  · exact .inl h
  · by_cases h' : raw.toNat ≤ 32775
    · exact .inr (.inl ⟨⟨raw.toNat - 32768, by omega⟩, by simp; omega⟩)
    · exact .inr (.inr (by omega))

theorem toNat_regWord (r : Reg) : (BitVec.ofNat 16 (32768 + r.val)).toNat = 32768 + r.val := by
  have hr := r.isLt
  simp only [BitVec.toNat_ofNat]
  omega

theorem decodeSrc_encodeSrc {x : Src} (h : x.wf = true) : decodeSrc (encodeSrc x) = x := by
  cases x with
  | lit v =>
    have hv := v.isLt
    rw [encodeSrc, decodeSrc_lit (by simp only [BitVec.toNat_setWidth]; omega)]
    congr 1
    apply BitVec.eq_of_toNat_eq
    simp only [BitVec.toNat_setWidth]
    omega
  | reg r => exact decodeSrc_reg (toNat_regWord r)
  | invalid raw => exact decodeSrc_invalid (raw := raw) (by simpa [Src.wf] using h)

theorem decodeDst_encodeDst {x : Dst} (h : x.wf = true) : decodeDst (encodeDst x) = x := by
  cases x with
  | reg r => exact decodeDst_reg (toNat_regWord r)
  | invalid raw =>
    have : raw.toNat < 32768 ∨ 32776 ≤ raw.toNat := by simpa [Dst.wf] using h
    exact decodeDst_invalid (raw := raw) (by omega)

theorem encodeSrc_decodeSrc (raw : Word) : encodeSrc (decodeSrc raw) = raw := by
  rcases word_cases raw with h | ⟨r, h⟩ | h
  · rw [decodeSrc_lit h, encodeSrc]
    apply BitVec.eq_of_toNat_eq
    simp only [BitVec.toNat_setWidth]
    omega
  · rw [decodeSrc_reg h, encodeSrc]
    exact BitVec.eq_of_toNat_eq (by rw [toNat_regWord, h])
  · rw [decodeSrc_invalid h, encodeSrc]

theorem encodeDst_decodeDst (raw : Word) : encodeDst (decodeDst raw) = raw := by
  rcases word_cases raw with h | ⟨r, h⟩ | h
  · rw [decodeDst_invalid (.inl h), encodeDst]
  · rw [decodeDst_reg h, encodeDst]
    exact BitVec.eq_of_toNat_eq (by rw [toNat_regWord, h])
  · rw [decodeDst_invalid (.inr h), encodeDst]

theorem wf_decodeSrc (raw : Word) : (decodeSrc raw).wf = true := by
  rcases word_cases raw with h | ⟨r, h⟩ | h
  · rw [decodeSrc_lit h]; rfl
  · rw [decodeSrc_reg h]; rfl
  · rw [decodeSrc_invalid h]; simpa [Src.wf] using h

theorem wf_decodeDst (raw : Word) : (decodeDst raw).wf = true := by
  rcases word_cases raw with h | ⟨r, h⟩ | h
  · rw [decodeDst_invalid (.inl h)]; simp [Dst.wf]; omega
  · rw [decodeDst_reg h]; rfl
  · rw [decodeDst_invalid (.inr h)]; simp [Dst.wf]; omega

theorem legal_decodeSrc (raw : Word) : (decodeSrc raw).legal = decide (raw.toNat ≤ 32775) := by
  rcases word_cases raw with h | ⟨r, h⟩ | h
  · rw [decodeSrc_lit h]; simp [Src.legal]; omega
  · have := r.isLt
    rw [decodeSrc_reg h]; simp [Src.legal]; omega
  · rw [decodeSrc_invalid h]; simp [Src.legal]; omega

theorem legal_decodeDst (raw : Word) :
    (decodeDst raw).legal = (decide (32768 ≤ raw.toNat) && decide (raw.toNat ≤ 32775)) := by
  rcases word_cases raw with h | ⟨r, h⟩ | h
  · rw [decodeDst_invalid (.inl h)]; simp [Dst.legal]; omega
  · have := r.isLt
    rw [decodeDst_reg h]; simp [Dst.legal]; omega
  · rw [decodeDst_invalid (.inr h)]; simp [Dst.legal]; omega

/-! ### What a format reads: either it finds its operand words, or it names the opcode as truncated -/

theorem decodeF1R_eq_ok {op : Word} {mk : Src → Instr} {ws rest : List Word} {i : Instr} :
    decodeF1R op mk ws = .ok (i, rest) ↔ ∃ a, ws = a :: rest ∧ i = mk (decodeSrc a) := by
  rcases ws with _ | ⟨a, ws⟩ <;> simp [decodeF1R, and_comm, eq_comm]

theorem decodeF1W_eq_ok {op : Word} {mk : Dst → Instr} {ws rest : List Word} {i : Instr} :
    decodeF1W op mk ws = .ok (i, rest) ↔ ∃ a, ws = a :: rest ∧ i = mk (decodeDst a) := by
  rcases ws with _ | ⟨a, ws⟩ <;> simp [decodeF1W, and_comm, eq_comm]

theorem decodeF2WR_eq_ok {op : Word} {mk : Dst → Src → Instr} {ws rest : List Word} {i : Instr} :
    decodeF2WR op mk ws = .ok (i, rest) ↔
      ∃ a b, ws = a :: b :: rest ∧ i = mk (decodeDst a) (decodeSrc b) := by
  rcases ws with _ | ⟨a, _ | ⟨b, ws⟩⟩ <;> simp [decodeF2WR, and_comm, eq_comm]

theorem decodeF2RR_eq_ok {op : Word} {mk : Src → Src → Instr} {ws rest : List Word} {i : Instr} :
    decodeF2RR op mk ws = .ok (i, rest) ↔
      ∃ a b, ws = a :: b :: rest ∧ i = mk (decodeSrc a) (decodeSrc b) := by
  rcases ws with _ | ⟨a, _ | ⟨b, ws⟩⟩ <;> simp [decodeF2RR, and_comm, eq_comm]

theorem decodeF3WRR_eq_ok {op : Word} {mk : Dst → Src → Src → Instr} {ws rest : List Word} {i : Instr} :
    decodeF3WRR op mk ws = .ok (i, rest) ↔
      ∃ a b c, ws = a :: b :: c :: rest ∧ i = mk (decodeDst a) (decodeSrc b) (decodeSrc c) := by
  rcases ws with _ | ⟨a, _ | ⟨b, _ | ⟨c, ws⟩⟩⟩ <;> simp [decodeF3WRR, and_comm, eq_comm]

theorem decodeF1R_eq_error {op : Word} {mk : Src → Instr} {ws : List Word} {e : DecodeError} :
    decodeF1R op mk ws = .error e ↔ ws.length < 1 ∧ e = .truncated op := by
  rcases ws with _ | ⟨a, ws⟩ <;> simp [decodeF1R, eq_comm]

theorem decodeF1W_eq_error {op : Word} {mk : Dst → Instr} {ws : List Word} {e : DecodeError} :
    decodeF1W op mk ws = .error e ↔ ws.length < 1 ∧ e = .truncated op := by
  rcases ws with _ | ⟨a, ws⟩ <;> simp [decodeF1W, eq_comm]

theorem decodeF2WR_eq_error {op : Word} {mk : Dst → Src → Instr} {ws : List Word} {e : DecodeError} :
    decodeF2WR op mk ws = .error e ↔ ws.length < 2 ∧ e = .truncated op := by
  rcases ws with _ | ⟨a, _ | ⟨b, ws⟩⟩ <;> simp [decodeF2WR, eq_comm]

theorem decodeF2RR_eq_error {op : Word} {mk : Src → Src → Instr} {ws : List Word} {e : DecodeError} :
    decodeF2RR op mk ws = .error e ↔ ws.length < 2 ∧ e = .truncated op := by
  rcases ws with _ | ⟨a, _ | ⟨b, ws⟩⟩ <;> simp [decodeF2RR, eq_comm]

theorem decodeF3WRR_eq_error {op : Word} {mk : Dst → Src → Src → Instr} {ws : List Word} {e : DecodeError} :
    decodeF3WRR op mk ws = .error e ↔ ws.length < 3 ∧ e = .truncated op := by
  rcases ws with _ | ⟨a, _ | ⟨b, _ | ⟨c, ws⟩⟩⟩ <;> simp [decodeF3WRR, eq_comm]

/-- When the decoder refuses, it has no opcode word, or fewer words than its opcode's count. -/
theorem decode_eq_error {ws : List Word} {e : DecodeError} :
    decode ws = .error e ↔
      (ws = [] ∧ e = .noOpcode) ∨
      ∃ op rest, ws = op :: rest ∧ rest.length < operandCount op ∧ e = .truncated op := by
  rcases ws with _ | ⟨op, rest⟩
  · simp [decode, eq_comm]
  · simp only [decode, reduceCtorEq, false_and, false_or, List.cons.injEq]
    constructor
    · intro h
      refine ⟨op, rest, ⟨rfl, rfl⟩, ?_⟩
      split at h <;>
        simp_all [operandCount, decodeF1R_eq_error, decodeF1W_eq_error, decodeF2WR_eq_error, decodeF2RR_eq_error,
          decodeF3WRR_eq_error]
    · rintro ⟨op', rest', ⟨rfl, rfl⟩, h, rfl⟩
      unfold operandCount at h
      split at h <;>
        simp_all [decodeF1R_eq_error, decodeF1W_eq_error, decodeF2WR_eq_error, decodeF2RR_eq_error,
          decodeF3WRR_eq_error]

/-- The opcode of what was read is the first word, and the instruction is well-formed. -/
theorem decode_opcode {ws rest : List Word} {i : Instr} (h : decode ws = .ok (i, rest)) :
    ws.head? = some i.opcode ∧ i.wf = true := by
  rcases ws with _ | ⟨op, tl⟩
  · simp [decode] at h
  · have key : ∀ n : Nat, n < 65536 → op.toNat = n → op = BitVec.ofNat 16 n := fun n hn e =>
      BitVec.eq_of_toNat_eq (by simp only [BitVec.toNat_ofNat, e]; omega)
    simp only [decode] at h
    split at h <;>
      first
        | (next e =>
            simp only [decodeF1R_eq_ok, decodeF1W_eq_ok, decodeF2WR_eq_ok, decodeF2RR_eq_ok, decodeF3WRR_eq_ok,
              Except.ok.injEq, Prod.mk.injEq] at h
            have hop := key _ (by decide) e
            first
              | (obtain ⟨rfl, -⟩ := h; simp [hop, Instr.opcode, Instr.wf])
              | (obtain ⟨a, -, rfl⟩ := h; simp [hop, Instr.opcode, Instr.wf, wf_decodeSrc, wf_decodeDst])
              | (obtain ⟨a, b, -, rfl⟩ := h; simp [hop, Instr.opcode, Instr.wf, wf_decodeSrc, wf_decodeDst])
              | (obtain ⟨a, b, c, -, rfl⟩ := h; simp [hop, Instr.opcode, Instr.wf, wf_decodeSrc, wf_decodeDst]))
        | (simp only [Except.ok.injEq, Prod.mk.injEq] at h
           obtain ⟨rfl, -⟩ := h
           refine ⟨rfl, ?_⟩
           simp only [Instr.wf, decide_eq_true_eq]
           by_contra hlt
           have : ∀ k, op.toNat = k → k < 22 → False := by
             intro k hk hk'
             interval_cases k <;> simp_all
           exact this _ rfl (by omega))

/-- An opcode word above 21 takes no operand word (R88). -/
theorem operandCount_illegal {op : Word} (h : 22 ≤ op.toNat) : operandCount op = 0 := by
  unfold operandCount
  split <;> omega

/-- Two bytes make a word; a last byte without a partner makes none (`20_memory.md` R55). -/
theorem length_wordsOfBytes : ∀ bs : List Byte, (wordsOfBytes bs).length = bs.length / 2
  | [] => rfl
  | [_] => by simp [wordsOfBytes]
  | _ :: _ :: bs => by simp [wordsOfBytes, length_wordsOfBytes bs]; omega

end Sys2Proof
end

