-- ==== Sys2Proof/Laws/State.lean ====
section
/-! SUPPORT. What each named update of the state does to each field: true by definition, for simp. -/

namespace Sys2Proof.Machine

@[simp] theorem setPc_regs (target : Word) (s : State) :
    (setPc target s).regs = s.regs := rfl
@[simp] theorem setPc_pc (target : Word) (s : State) :
    (setPc target s).pc = target := rfl
@[simp] theorem setPc_mem (target : Word) (s : State) :
    (setPc target s).mem = s.mem := rfl
@[simp] theorem setPc_stack (target : Word) (s : State) :
    (setPc target s).stack = s.stack := rfl
@[simp] theorem setPc_runState (target : Word) (s : State) :
    (setPc target s).runState = s.runState := rfl
@[simp] theorem setPc_fault (target : Word) (s : State) :
    (setPc target s).fault = s.fault := rfl
@[simp] theorem setPc_output (target : Word) (s : State) :
    (setPc target s).output = s.output := rfl
@[simp] theorem setPc_config (target : Word) (s : State) :
    (setPc target s).config = s.config := rfl

@[simp] theorem advance_regs (n : Nat) (s : State) :
    (advance n s).regs = s.regs := rfl
@[simp] theorem advance_pc (n : Nat) (s : State) :
    (advance n s).pc = s.pc + BitVec.ofNat 16 n := rfl
@[simp] theorem advance_mem (n : Nat) (s : State) :
    (advance n s).mem = s.mem := rfl
@[simp] theorem advance_stack (n : Nat) (s : State) :
    (advance n s).stack = s.stack := rfl
@[simp] theorem advance_runState (n : Nat) (s : State) :
    (advance n s).runState = s.runState := rfl
@[simp] theorem advance_fault (n : Nat) (s : State) :
    (advance n s).fault = s.fault := rfl
@[simp] theorem advance_output (n : Nat) (s : State) :
    (advance n s).output = s.output := rfl
@[simp] theorem advance_config (n : Nat) (s : State) :
    (advance n s).config = s.config := rfl

@[simp] theorem writeReg_regs (r : Reg) (v : Word) (s : State) :
    (writeReg r v s).regs = s.regs.set r v := rfl
@[simp] theorem writeReg_pc (r : Reg) (v : Word) (s : State) :
    (writeReg r v s).pc = s.pc := rfl
@[simp] theorem writeReg_mem (r : Reg) (v : Word) (s : State) :
    (writeReg r v s).mem = s.mem := rfl
@[simp] theorem writeReg_stack (r : Reg) (v : Word) (s : State) :
    (writeReg r v s).stack = s.stack := rfl
@[simp] theorem writeReg_runState (r : Reg) (v : Word) (s : State) :
    (writeReg r v s).runState = s.runState := rfl
@[simp] theorem writeReg_fault (r : Reg) (v : Word) (s : State) :
    (writeReg r v s).fault = s.fault := rfl
@[simp] theorem writeReg_output (r : Reg) (v : Word) (s : State) :
    (writeReg r v s).output = s.output := rfl
@[simp] theorem writeReg_config (r : Reg) (v : Word) (s : State) :
    (writeReg r v s).config = s.config := rfl

@[simp] theorem setMem_regs (m : Memory) (s : State) :
    (setMem m s).regs = s.regs := rfl
@[simp] theorem setMem_pc (m : Memory) (s : State) :
    (setMem m s).pc = s.pc := rfl
@[simp] theorem setMem_mem (m : Memory) (s : State) :
    (setMem m s).mem = m := rfl
@[simp] theorem setMem_stack (m : Memory) (s : State) :
    (setMem m s).stack = s.stack := rfl
@[simp] theorem setMem_runState (m : Memory) (s : State) :
    (setMem m s).runState = s.runState := rfl
@[simp] theorem setMem_fault (m : Memory) (s : State) :
    (setMem m s).fault = s.fault := rfl
@[simp] theorem setMem_output (m : Memory) (s : State) :
    (setMem m s).output = s.output := rfl
@[simp] theorem setMem_config (m : Memory) (s : State) :
    (setMem m s).config = s.config := rfl

@[simp] theorem setStack_regs (l : List Word) (s : State) :
    (setStack l s).regs = s.regs := rfl
@[simp] theorem setStack_pc (l : List Word) (s : State) :
    (setStack l s).pc = s.pc := rfl
@[simp] theorem setStack_mem (l : List Word) (s : State) :
    (setStack l s).mem = s.mem := rfl
@[simp] theorem setStack_stack (l : List Word) (s : State) :
    (setStack l s).stack = l := rfl
@[simp] theorem setStack_runState (l : List Word) (s : State) :
    (setStack l s).runState = s.runState := rfl
@[simp] theorem setStack_fault (l : List Word) (s : State) :
    (setStack l s).fault = s.fault := rfl
@[simp] theorem setStack_output (l : List Word) (s : State) :
    (setStack l s).output = s.output := rfl
@[simp] theorem setStack_config (l : List Word) (s : State) :
    (setStack l s).config = s.config := rfl

@[simp] theorem emit_regs (b : Byte) (s : State) :
    (emit b s).regs = s.regs := rfl
@[simp] theorem emit_pc (b : Byte) (s : State) :
    (emit b s).pc = s.pc := rfl
@[simp] theorem emit_mem (b : Byte) (s : State) :
    (emit b s).mem = s.mem := rfl
@[simp] theorem emit_stack (b : Byte) (s : State) :
    (emit b s).stack = s.stack := rfl
@[simp] theorem emit_runState (b : Byte) (s : State) :
    (emit b s).runState = s.runState := rfl
@[simp] theorem emit_fault (b : Byte) (s : State) :
    (emit b s).fault = s.fault := rfl
@[simp] theorem emit_output (b : Byte) (s : State) :
    (emit b s).output = s.output ++ [b] := rfl
@[simp] theorem emit_config (b : Byte) (s : State) :
    (emit b s).config = s.config := rfl

@[simp] theorem setRunState_regs (r : RunState) (s : State) :
    (setRunState r s).regs = s.regs := rfl
@[simp] theorem setRunState_pc (r : RunState) (s : State) :
    (setRunState r s).pc = s.pc := rfl
@[simp] theorem setRunState_mem (r : RunState) (s : State) :
    (setRunState r s).mem = s.mem := rfl
@[simp] theorem setRunState_stack (r : RunState) (s : State) :
    (setRunState r s).stack = s.stack := rfl
@[simp] theorem setRunState_runState (r : RunState) (s : State) :
    (setRunState r s).runState = r := rfl
@[simp] theorem setRunState_fault (r : RunState) (s : State) :
    (setRunState r s).fault = s.fault := rfl
@[simp] theorem setRunState_output (r : RunState) (s : State) :
    (setRunState r s).output = s.output := rfl
@[simp] theorem setRunState_config (r : RunState) (s : State) :
    (setRunState r s).config = s.config := rfl

@[simp] theorem takeFault_regs (k : FaultKind) (op : Option Word) (s : State) :
    (takeFault k op s).regs = s.regs := rfl
@[simp] theorem takeFault_pc (k : FaultKind) (op : Option Word) (s : State) :
    (takeFault k op s).pc = s.pc := rfl
@[simp] theorem takeFault_mem (k : FaultKind) (op : Option Word) (s : State) :
    (takeFault k op s).mem = s.mem := rfl
@[simp] theorem takeFault_stack (k : FaultKind) (op : Option Word) (s : State) :
    (takeFault k op s).stack = s.stack := rfl
@[simp] theorem takeFault_runState (k : FaultKind) (op : Option Word) (s : State) :
    (takeFault k op s).runState = .faulted := rfl
@[simp] theorem takeFault_fault (k : FaultKind) (op : Option Word) (s : State) :
    (takeFault k op s).fault = some { kind := k, pc := s.pc, opcode := op } := rfl
@[simp] theorem takeFault_output (k : FaultKind) (op : Option Word) (s : State) :
    (takeFault k op s).output = s.output := rfl
@[simp] theorem takeFault_config (k : FaultKind) (op : Option Word) (s : State) :
    (takeFault k op s).config = s.config := rfl

end Sys2Proof.Machine
end

