-- ==== Sys2Proof/Laws/Operands.lean ====
section
/-! SUPPORT. Everything the operand forms and the operations that can fault can answer, one lemma each way. -/

namespace Sys2Proof.Machine

/-! ### Operand forms -/

theorem resolve_eq_error {s : State} {x : Src} {k : FaultKind} :
    resolve s x = .error k ↔ x.legal = false ∧ k = .invalidOperandCode := by
  cases x <;> simp [resolve, Src.legal, eq_comm]

theorem regIndex_eq_error {x : Dst} {k : FaultKind} :
    regIndex x = .error k ↔ x.legal = false ∧ k = .invalidOperandCode := by
  cases x <;> simp [regIndex, Dst.legal, eq_comm]

theorem regIndex_eq_ok {x : Dst} {r : Reg} : regIndex x = .ok r ↔ x = .reg r := by
  cases x <;> simp [regIndex]

theorem resolve_of_legal {s : State} {x : Src} (h : x.legal = true) : ∃ v, resolve s x = .ok v := by
  cases x <;> simp_all [resolve, Src.legal]

theorem regIndex_of_legal {x : Dst} (h : x.legal = true) : ∃ r, regIndex x = .ok r := by
  cases x <;> simp_all [regIndex, Dst.legal]

/-- Resolving looks at the registers alone. -/
theorem resolve_congr {s t : State} {x : Src} (h : t.regs = s.regs) : resolve t x = resolve s x := by
  cases x <;> simp [resolve, readReg, h]

/-! ### The five formats -/

theorem withR_eq_ok {s t : State} {a : Src} {f : Word → Except FaultKind State} :
    withR s a f = .ok t ↔ ∃ va, resolve s a = .ok va ∧ f va = .ok t := by
  unfold withR
  cases resolve s a <;> simp [bind, Except.bind]

theorem withR_eq_error {s : State} {a : Src} {f : Word → Except FaultKind State} {k : FaultKind} :
    withR s a f = .error k ↔
      (a.legal = false ∧ k = .invalidOperandCode) ∨ ∃ va, resolve s a = .ok va ∧ f va = .error k := by
  rw [← resolve_eq_error (s := s)]
  unfold withR
  cases resolve s a <;> simp [bind, Except.bind]

theorem withW_eq_ok {t : State} {a : Dst} {f : Reg → Except FaultKind State} :
    withW a f = .ok t ↔ ∃ r, regIndex a = .ok r ∧ f r = .ok t := by
  unfold withW
  cases regIndex a <;> simp [bind, Except.bind]

theorem withW_eq_error {a : Dst} {f : Reg → Except FaultKind State} {k : FaultKind} :
    withW a f = .error k ↔
      (a.legal = false ∧ k = .invalidOperandCode) ∨ ∃ r, regIndex a = .ok r ∧ f r = .error k := by
  rw [← regIndex_eq_error]
  unfold withW
  cases regIndex a <;> simp [bind, Except.bind]

theorem withWR_eq_ok {s t : State} {a : Dst} {b : Src} {f : Reg → Word → Except FaultKind State} :
    withWR s a b f = .ok t ↔ ∃ r vb, regIndex a = .ok r ∧ resolve s b = .ok vb ∧ f r vb = .ok t := by
  unfold withWR
  cases regIndex a <;> cases resolve s b <;> simp [bind, Except.bind]

theorem withWR_eq_error {s : State} {a : Dst} {b : Src} {f : Reg → Word → Except FaultKind State} {k : FaultKind} :
    withWR s a b f = .error k ↔
      ((a.legal = false ∨ b.legal = false) ∧ k = .invalidOperandCode) ∨
        ∃ r vb, regIndex a = .ok r ∧ resolve s b = .ok vb ∧ f r vb = .error k := by
  cases a <;> cases b <;>
    simp [withWR, regIndex, resolve, Dst.legal, Src.legal, bind, Except.bind, eq_comm]

theorem withRR_eq_ok {s t : State} {a b : Src} {f : Word → Word → Except FaultKind State} :
    withRR s a b f = .ok t ↔ ∃ va vb, resolve s a = .ok va ∧ resolve s b = .ok vb ∧ f va vb = .ok t := by
  unfold withRR
  cases resolve s a <;> cases resolve s b <;> simp [bind, Except.bind]

theorem withRR_eq_error {s : State} {a b : Src} {f : Word → Word → Except FaultKind State} {k : FaultKind} :
    withRR s a b f = .error k ↔
      ((a.legal = false ∨ b.legal = false) ∧ k = .invalidOperandCode) ∨
        ∃ va vb, resolve s a = .ok va ∧ resolve s b = .ok vb ∧ f va vb = .error k := by
  cases a <;> cases b <;> simp [withRR, resolve, Src.legal, bind, Except.bind, eq_comm]

theorem withWRR_eq_ok {s t : State} {a : Dst} {b c : Src} {f : Reg → Word → Word → Except FaultKind State} :
    withWRR s a b c f = .ok t ↔
      ∃ r vb vc, regIndex a = .ok r ∧ resolve s b = .ok vb ∧ resolve s c = .ok vc ∧ f r vb vc = .ok t := by
  unfold withWRR
  cases regIndex a <;> cases resolve s b <;> cases resolve s c <;> simp [bind, Except.bind]

theorem withWRR_eq_error {s : State} {a : Dst} {b c : Src} {f : Reg → Word → Word → Except FaultKind State}
    {k : FaultKind} :
    withWRR s a b c f = .error k ↔
      ((a.legal = false ∨ b.legal = false ∨ c.legal = false) ∧ k = .invalidOperandCode) ∨
        ∃ r vb vc, regIndex a = .ok r ∧ resolve s b = .ok vb ∧ resolve s c = .ok vc ∧ f r vb vc = .error k := by
  cases a <;> cases b <;> cases c <;>
    simp [withWRR, regIndex, resolve, Dst.legal, Src.legal, bind, Except.bind, eq_comm]

/-! ### Memory and stack accesses -/

theorem memRead_eq_ok {s : State} {addr v : Word} :
    memRead s addr = .ok v ↔ addr.toNat < memWords ∧ v = readWord s.mem addr.toNat := by
  unfold memRead
  split <;> simp [eq_comm] <;> omega

theorem memRead_eq_error {s : State} {addr : Word} {k : FaultKind} :
    memRead s addr = .error k ↔ memWords ≤ addr.toNat ∧ k = .memoryOutOfRange := by
  unfold memRead
  split <;> simp [eq_comm] <;> omega

theorem memWrite_eq_ok {s t : State} {addr v : Word} :
    memWrite addr v s = .ok t ↔ addr.toNat < memWords ∧ t = setMem (writeWord s.mem addr.toNat v) s := by
  unfold memWrite
  split <;> simp [eq_comm] <;> omega

theorem memWrite_eq_error {s : State} {addr v : Word} {k : FaultKind} :
    memWrite addr v s = .error k ↔ memWords ≤ addr.toNat ∧ k = .memoryOutOfRange := by
  unfold memWrite
  split <;> simp [eq_comm] <;> omega

theorem stackFull_eq_false {s : State} :
    stackFull s = false ↔ ∀ n, s.config.stackCapacity = some n → s.stack.length < n := by
  unfold stackFull
  split <;> simp_all

theorem stackFull_eq_true {s : State} :
    stackFull s = true ↔ ∃ n, s.config.stackCapacity = some n ∧ n ≤ s.stack.length := by
  unfold stackFull
  split <;> simp_all

theorem pushWord_eq_ok {s t : State} {v : Word} :
    pushWord v s = .ok t ↔ stackFull s = false ∧ t = setStack (s.stack ++ [v]) s := by
  unfold pushWord
  cases stackFull s <;> simp [eq_comm]

theorem pushWord_eq_error {s : State} {v : Word} {k : FaultKind} :
    pushWord v s = .error k ↔ stackFull s = true ∧ k = .stackOverflow := by
  unfold pushWord
  cases stackFull s <;> simp [eq_comm]

theorem popWord_eq_ok {s t : State} {v : Word} :
    popWord s = .ok (v, t) ↔ ∃ l, s.stack = l ++ [v] ∧ t = setStack l s := by
  unfold popWord
  rcases List.eq_nil_or_concat s.stack with h | ⟨l, w, h⟩
  · simp [h]
  · simp only [h, List.concat_eq_append, List.getLast?_append, List.getLast?_singleton, Option.some_or,
      List.dropLast_concat, Except.ok.injEq, Prod.mk.injEq]
    constructor
    · rintro ⟨rfl, rfl⟩
      exact ⟨l, rfl, rfl⟩
    · rintro ⟨l', h', rfl⟩
      obtain ⟨rfl, h''⟩ := List.append_inj' h' rfl
      exact ⟨by simpa using h'', rfl⟩

theorem popWord_eq_error {s : State} {k : FaultKind} :
    popWord s = .error k ↔ s.stack = [] ∧ k = .stackUnderflow := by
  unfold popWord
  rcases List.eq_nil_or_concat s.stack with h | ⟨l, w, h⟩ <;> simp [h, @eq_comm _ _ k]

/-! ### Committing -/

/-- What committing answers: always a next state, all of the writes or the fault entry. -/
theorem commit_eq_next {op : Word} {s t : State} {r : Except FaultKind State} :
    commit op s r = .next t ↔ r = .ok t ∨ ∃ k, r = .error k ∧ takeFault k (some op) s = t := by
  cases r <;> simp [commit]

theorem map_eq_ok {α β : Type} {r : Except FaultKind α} {f : α → β} {b : β} :
    r.map f = .ok b ↔ ∃ a, r = .ok a ∧ f a = b := by
  cases r <;> simp [Except.map]

theorem map_eq_error {α β : Type} {r : Except FaultKind α} {f : α → β} {k : FaultKind} :
    r.map f = .error k ↔ r = .error k := by
  cases r <;> simp [Except.map]

end Sys2Proof.Machine
end

