-- ==== Sys2Proof/Laws/Exec.lean ====
section
/-! SUPPORT. All that executing one instruction can do, said once for each instruction: it completes with its own
effect, or enters a fault of its own opcode. -/

namespace Sys2Proof.Machine

variable {s t : State}

/-- The five shapes of `commit` over a format, turned into their cases. -/
theorem commit_withWRR_cases {op : Word} {a : Dst} {b c : Src} {f : Reg → Word → Word → Except FaultKind State}
    (h : commit op s (withWRR s a b c f) = .next t) :
    (∃ r vb vc, regIndex a = .ok r ∧ resolve s b = .ok vb ∧ resolve s c = .ok vc ∧
      (f r vb vc = .ok t ∨ ∃ k, f r vb vc = .error k ∧ takeFault k (some op) s = t)) ∨
    ((a.legal = false ∨ b.legal = false ∨ c.legal = false) ∧ takeFault .invalidOperandCode (some op) s = t) := by
  rcases commit_eq_next.mp h with h | ⟨k, h, ht⟩
  · obtain ⟨r, vb, vc, h1, h2, h3, h4⟩ := withWRR_eq_ok.mp h
    exact .inl ⟨r, vb, vc, h1, h2, h3, .inl h4⟩
  · rcases withWRR_eq_error.mp h with ⟨hl, rfl⟩ | ⟨r, vb, vc, h1, h2, h3, h4⟩
    · exact .inr ⟨hl, ht⟩
    · exact .inl ⟨r, vb, vc, h1, h2, h3, .inr ⟨k, h4, ht⟩⟩

theorem commit_withWR_cases {op : Word} {a : Dst} {b : Src} {f : Reg → Word → Except FaultKind State}
    (h : commit op s (withWR s a b f) = .next t) :
    (∃ r vb, regIndex a = .ok r ∧ resolve s b = .ok vb ∧
      (f r vb = .ok t ∨ ∃ k, f r vb = .error k ∧ takeFault k (some op) s = t)) ∨
    ((a.legal = false ∨ b.legal = false) ∧ takeFault .invalidOperandCode (some op) s = t) := by
  rcases commit_eq_next.mp h with h | ⟨k, h, ht⟩
  · obtain ⟨r, vb, h1, h2, h4⟩ := withWR_eq_ok.mp h
    exact .inl ⟨r, vb, h1, h2, .inl h4⟩
  · rcases withWR_eq_error.mp h with ⟨hl, rfl⟩ | ⟨r, vb, h1, h2, h4⟩
    · exact .inr ⟨hl, ht⟩
    · exact .inl ⟨r, vb, h1, h2, .inr ⟨k, h4, ht⟩⟩

theorem commit_withRR_cases {op : Word} {a b : Src} {f : Word → Word → Except FaultKind State}
    (h : commit op s (withRR s a b f) = .next t) :
    (∃ va vb, resolve s a = .ok va ∧ resolve s b = .ok vb ∧
      (f va vb = .ok t ∨ ∃ k, f va vb = .error k ∧ takeFault k (some op) s = t)) ∨
    ((a.legal = false ∨ b.legal = false) ∧ takeFault .invalidOperandCode (some op) s = t) := by
  rcases commit_eq_next.mp h with h | ⟨k, h, ht⟩
  · obtain ⟨va, vb, h1, h2, h4⟩ := withRR_eq_ok.mp h
    exact .inl ⟨va, vb, h1, h2, .inl h4⟩
  · rcases withRR_eq_error.mp h with ⟨hl, rfl⟩ | ⟨va, vb, h1, h2, h4⟩
    · exact .inr ⟨hl, ht⟩
    · exact .inl ⟨va, vb, h1, h2, .inr ⟨k, h4, ht⟩⟩

theorem commit_withR_cases {op : Word} {a : Src} {f : Word → Except FaultKind State}
    (h : commit op s (withR s a f) = .next t) :
    (∃ va, resolve s a = .ok va ∧ (f va = .ok t ∨ ∃ k, f va = .error k ∧ takeFault k (some op) s = t)) ∨
    (a.legal = false ∧ takeFault .invalidOperandCode (some op) s = t) := by
  rcases commit_eq_next.mp h with h | ⟨k, h, ht⟩
  · obtain ⟨va, h1, h4⟩ := withR_eq_ok.mp h
    exact .inl ⟨va, h1, .inl h4⟩
  · rcases withR_eq_error.mp h with ⟨hl, rfl⟩ | ⟨va, h1, h4⟩
    · exact .inr ⟨hl, ht⟩
    · exact .inl ⟨va, h1, .inr ⟨k, h4, ht⟩⟩

theorem commit_withW_cases {op : Word} {a : Dst} {f : Reg → Except FaultKind State}
    (h : commit op s (withW a f) = .next t) :
    (∃ r, regIndex a = .ok r ∧ (f r = .ok t ∨ ∃ k, f r = .error k ∧ takeFault k (some op) s = t)) ∨
    (a.legal = false ∧ takeFault .invalidOperandCode (some op) s = t) := by
  rcases commit_eq_next.mp h with h | ⟨k, h, ht⟩
  · obtain ⟨r, h1, h4⟩ := withW_eq_ok.mp h
    exact .inl ⟨r, h1, .inl h4⟩
  · rcases withW_eq_error.mp h with ⟨hl, rfl⟩ | ⟨r, h1, h4⟩
    · exact .inr ⟨hl, ht⟩
    · exact .inl ⟨r, h1, .inr ⟨k, h4, ht⟩⟩

/-! ### What the effects of the families can answer -/

theorem push_map_cases {v : Word} {f : State → State} {r : Except FaultKind State}
    (hr : r = (pushWord v s).map f) :
    (stackFull s = false ∧ r = .ok (f (setStack (s.stack ++ [v]) s))) ∨
    (stackFull s = true ∧ r = .error .stackOverflow) := by
  subst hr
  unfold pushWord
  cases stackFull s <;> simp [Except.map]

theorem pop_map_cases {f : Word × State → State} {r : Except FaultKind State} (hr : r = (popWord s).map f) :
    (∃ l v, s.stack = l ++ [v] ∧ r = .ok (f (v, setStack l s))) ∨
    (s.stack = [] ∧ r = .error .stackUnderflow) := by
  subst hr
  rcases List.eq_nil_or_concat s.stack with h | ⟨l, v, h⟩
  · exact .inr ⟨h, by rw [popWord_eq_error.mpr ⟨h, rfl⟩]; rfl⟩
  · rw [List.concat_eq_append] at h
    exact .inl ⟨l, v, h, by rw [popWord_eq_ok.mpr ⟨l, h, rfl⟩]; rfl⟩

/-! ### All that an instruction can do -/

/-- The instruction completes: its own effect, one rule for each (the pseudocode of files 40 to 46). -/
inductive Completes (s : State) : Instr → State → Prop where
  | halt : Completes s .halt (setRunState .halted s)
  | noop : Completes s .noop (advance 1 s)
  | set {a b r vb} (ha : regIndex a = .ok r) (hb : resolve s b = .ok vb) :
      Completes s (.set a b) (advance 3 (writeReg r vb s))
  | push {a va} (ha : resolve s a = .ok va) (room : stackFull s = false) :
      Completes s (.push a) (advance 2 (setStack (s.stack ++ [va]) s))
  | pop {a r l v} (ha : regIndex a = .ok r) (top : s.stack = l ++ [v]) :
      Completes s (.pop a) (advance 2 (writeReg r v (setStack l s)))
  | eq {a b c r vb vc} (ha : regIndex a = .ok r) (hb : resolve s b = .ok vb) (hc : resolve s c = .ok vc) :
      Completes s (.eq a b c) (advance 4 (writeReg r (aluEq vb vc) s))
  | gt {a b c r vb vc} (ha : regIndex a = .ok r) (hb : resolve s b = .ok vb) (hc : resolve s c = .ok vc) :
      Completes s (.gt a b c) (advance 4 (writeReg r (aluGt vb vc) s))
  | add {a b c r vb vc} (ha : regIndex a = .ok r) (hb : resolve s b = .ok vb) (hc : resolve s c = .ok vc) :
      Completes s (.add a b c) (advance 4 (writeReg r (aluAdd vb vc) s))
  | mult {a b c r vb vc} (ha : regIndex a = .ok r) (hb : resolve s b = .ok vb) (hc : resolve s c = .ok vc) :
      Completes s (.mult a b c) (advance 4 (writeReg r (aluMult vb vc) s))
  | and {a b c r vb vc} (ha : regIndex a = .ok r) (hb : resolve s b = .ok vb) (hc : resolve s c = .ok vc) :
      Completes s (.and a b c) (advance 4 (writeReg r (aluAnd vb vc) s))
  | or {a b c r vb vc} (ha : regIndex a = .ok r) (hb : resolve s b = .ok vb) (hc : resolve s c = .ok vc) :
      Completes s (.or a b c) (advance 4 (writeReg r (aluOr vb vc) s))
  | mod {a b c r vb vc} (ha : regIndex a = .ok r) (hb : resolve s b = .ok vb) (hc : resolve s c = .ok vc)
      (nonzero : vc ≠ 0) :
      Completes s (.mod a b c) (advance 4 (writeReg r (BitVec.ofNat 16 (vb.toNat % vc.toNat)) s))
  | not {a b r vb} (ha : regIndex a = .ok r) (hb : resolve s b = .ok vb) :
      Completes s (.not a b) (advance 3 (writeReg r (aluNot vb) s))
  | rmem {a b r addr} (ha : regIndex a = .ok r) (hb : resolve s b = .ok addr) (inside : addr.toNat < memWords) :
      Completes s (.rmem a b) (advance 3 (writeReg r (readWord s.mem addr.toNat) s))
  | wmem {a b addr v} (ha : resolve s a = .ok addr) (hb : resolve s b = .ok v) (inside : addr.toNat < memWords) :
      Completes s (.wmem a b) (advance 3 (setMem (writeWord s.mem addr.toNat v) s))
  | jmp {a va} (ha : resolve s a = .ok va) : Completes s (.jmp a) (setPc va s)
  | jt {a b va vb} (ha : resolve s a = .ok va) (hb : resolve s b = .ok vb) :
      Completes s (.jt a b) (if conditionHolds va then setPc vb s else advance 3 s)
  | jf {a b va vb} (ha : resolve s a = .ok va) (hb : resolve s b = .ok vb) :
      Completes s (.jf a b) (if conditionHolds va then advance 3 s else setPc vb s)
  | call {a va} (ha : resolve s a = .ok va) (room : stackFull s = false) :
      Completes s (.call a) (setPc va (setStack (s.stack ++ [s.pc + 2]) s))
  | ret {l v} (top : s.stack = l ++ [v]) : Completes s .ret (setPc v (setStack l s))
  | out {a va} (ha : resolve s a = .ok va) :
      Completes s (.out a) (advance 2 (emit (va.extractLsb' 0 8) s))

/-- Why an instruction enters a fault of kind `k`: it is no instruction of the core, an operand is outside its valid
codes, or its own check fails. -/
def FaultsBy (i : Instr) (k : FaultKind) : Prop :=
  (k = .unknownOpcode ∧ (i = .inp ∨ ∃ op, i = .illegal op)) ∨
  (k = .invalidOperandCode ∧ i.legal = false ∧ 0 < operandCount i.opcode) ∨
  (i.legal = true ∧ ownCheck i.opcode k = true)

theorem legal_of_resolve {x : Src} {v : Word} (h : resolve s x = .ok v) : x.legal = true := by
  cases x <;> simp_all [resolve, Src.legal]

theorem legal_of_regIndex {x : Dst} {r : Reg} (h : regIndex x = .ok r) : x.legal = true := by
  cases x <;> simp_all [regIndex, Dst.legal]

/-- All that executing an instruction can do: complete, or enter a fault that `FaultsBy` allows. -/
theorem exec_cases {i : Instr} (h : exec i s = .next t) :
    Completes s i t ∨ ∃ k, FaultsBy i k ∧ takeFault k (some i.opcode) s = t := by
  cases i with
  | halt => cases h; exact .inl .halt
  | noop => cases h; exact .inl .noop
  | inp => cases h; exact .inr ⟨_, .inl ⟨rfl, .inl rfl⟩, rfl⟩
  | illegal op => cases h; exact .inr ⟨_, .inl ⟨rfl, .inr ⟨op, rfl⟩⟩, rfl⟩
  | ret =>
    have h : commit Instr.ret.opcode s _ = .next t := h
    rcases pop_map_cases (s := s) (f := fun (v, t) => setPc v t) rfl with ⟨l, v, hs, hr⟩ | ⟨hs, hr⟩
    · rw [hr] at h; cases h; exact .inl (.ret hs)
    · rw [hr] at h; cases h; exact .inr ⟨_, .inr (.inr ⟨rfl, rfl⟩), rfl⟩
  | eq a b c =>
    rcases commit_withWRR_cases h with ⟨r, vb, vc, ha, hb, hc, h | ⟨k, hk, -⟩⟩ | ⟨hl, ht⟩
    · cases h; exact .inl (.eq ha hb hc)
    · cases hk
    · exact .inr ⟨_, .inr (.inl ⟨rfl, by rcases hl with hl | hl | hl <;> simp [Instr.legal, hl], by simp [Instr.opcode, operandCount]⟩), ht⟩
  | gt a b c =>
    rcases commit_withWRR_cases h with ⟨r, vb, vc, ha, hb, hc, h | ⟨k, hk, -⟩⟩ | ⟨hl, ht⟩
    · cases h; exact .inl (.gt ha hb hc)
    · cases hk
    · exact .inr ⟨_, .inr (.inl ⟨rfl, by rcases hl with hl | hl | hl <;> simp [Instr.legal, hl], by simp [Instr.opcode, operandCount]⟩), ht⟩
  | add a b c =>
    rcases commit_withWRR_cases h with ⟨r, vb, vc, ha, hb, hc, h | ⟨k, hk, -⟩⟩ | ⟨hl, ht⟩
    · cases h; exact .inl (.add ha hb hc)
    · cases hk
    · exact .inr ⟨_, .inr (.inl ⟨rfl, by rcases hl with hl | hl | hl <;> simp [Instr.legal, hl], by simp [Instr.opcode, operandCount]⟩), ht⟩
  | mult a b c =>
    rcases commit_withWRR_cases h with ⟨r, vb, vc, ha, hb, hc, h | ⟨k, hk, -⟩⟩ | ⟨hl, ht⟩
    · cases h; exact .inl (.mult ha hb hc)
    · cases hk
    · exact .inr ⟨_, .inr (.inl ⟨rfl, by rcases hl with hl | hl | hl <;> simp [Instr.legal, hl], by simp [Instr.opcode, operandCount]⟩), ht⟩
  | and a b c =>
    rcases commit_withWRR_cases h with ⟨r, vb, vc, ha, hb, hc, h | ⟨k, hk, -⟩⟩ | ⟨hl, ht⟩
    · cases h; exact .inl (.and ha hb hc)
    · cases hk
    · exact .inr ⟨_, .inr (.inl ⟨rfl, by rcases hl with hl | hl | hl <;> simp [Instr.legal, hl], by simp [Instr.opcode, operandCount]⟩), ht⟩
  | or a b c =>
    rcases commit_withWRR_cases h with ⟨r, vb, vc, ha, hb, hc, h | ⟨k, hk, -⟩⟩ | ⟨hl, ht⟩
    · cases h; exact .inl (.or ha hb hc)
    · cases hk
    · exact .inr ⟨_, .inr (.inl ⟨rfl, by rcases hl with hl | hl | hl <;> simp [Instr.legal, hl], by simp [Instr.opcode, operandCount]⟩), ht⟩
  | mod a b c =>
    rcases commit_withWRR_cases h with ⟨r, vb, vc, ha, hb, hc, h⟩ | ⟨hl, ht⟩
    · by_cases hz : vc = 0
      · simp only [aluMod, hz, if_pos, Except.map, reduceCtorEq, false_or, Except.error.injEq, exists_eq_left'] at h
        refine .inr ⟨_, .inr (.inr ⟨?_, rfl⟩), h⟩
        simp [Instr.legal, legal_of_regIndex ha, legal_of_resolve hb, legal_of_resolve hc]
      · simp only [aluMod, hz, if_false, Except.map, Except.ok.injEq, reduceCtorEq, false_and, exists_false,
          or_false] at h
        cases h; exact .inl (.mod ha hb hc hz)
    · exact .inr ⟨_, .inr (.inl ⟨rfl, by rcases hl with hl | hl | hl <;> simp [Instr.legal, hl], by simp [Instr.opcode, operandCount]⟩), ht⟩
  | set a b =>
    rcases commit_withWR_cases h with ⟨r, vb, ha, hb, h | ⟨k, hk, -⟩⟩ | ⟨hl, ht⟩
    · cases h; exact .inl (.set ha hb)
    · cases hk
    · exact .inr ⟨_, .inr (.inl ⟨rfl, by rcases hl with hl | hl <;> simp [Instr.legal, hl], by simp [Instr.opcode, operandCount]⟩), ht⟩
  | not a b =>
    rcases commit_withWR_cases h with ⟨r, vb, ha, hb, h | ⟨k, hk, -⟩⟩ | ⟨hl, ht⟩
    · cases h; exact .inl (.not ha hb)
    · cases hk
    · exact .inr ⟨_, .inr (.inl ⟨rfl, by rcases hl with hl | hl <;> simp [Instr.legal, hl], by simp [Instr.opcode, operandCount]⟩), ht⟩
  | rmem a b =>
    rcases commit_withWR_cases h with ⟨r, addr, ha, hb, h | ⟨k, hk, ht⟩⟩ | ⟨hl, ht⟩
    · obtain ⟨v, hv, rfl⟩ := map_eq_ok.mp h
      obtain ⟨hin, rfl⟩ := memRead_eq_ok.mp hv
      exact .inl (.rmem ha hb hin)
    · obtain ⟨-, rfl⟩ := memRead_eq_error.mp (map_eq_error.mp hk)
      refine .inr ⟨_, .inr (.inr ⟨?_, rfl⟩), ht⟩
      simp [Instr.legal, legal_of_regIndex ha, legal_of_resolve hb]
    · exact .inr ⟨_, .inr (.inl ⟨rfl, by rcases hl with hl | hl <;> simp [Instr.legal, hl], by simp [Instr.opcode, operandCount]⟩), ht⟩
  | wmem a b =>
    rcases commit_withRR_cases h with ⟨addr, v, ha, hb, h | ⟨k, hk, ht⟩⟩ | ⟨hl, ht⟩
    · obtain ⟨u, hu, rfl⟩ := map_eq_ok.mp h
      obtain ⟨hin, rfl⟩ := memWrite_eq_ok.mp hu
      exact .inl (.wmem ha hb hin)
    · obtain ⟨-, rfl⟩ := memWrite_eq_error.mp (map_eq_error.mp hk)
      refine .inr ⟨_, .inr (.inr ⟨?_, rfl⟩), ht⟩
      simp [Instr.legal, legal_of_resolve ha, legal_of_resolve hb]
    · exact .inr ⟨_, .inr (.inl ⟨rfl, by rcases hl with hl | hl <;> simp [Instr.legal, hl], by simp [Instr.opcode, operandCount]⟩), ht⟩
  | jt a b =>
    rcases commit_withRR_cases h with ⟨va, vb, ha, hb, h | ⟨k, hk, -⟩⟩ | ⟨hl, ht⟩
    · cases h; exact .inl (.jt ha hb)
    · cases hk
    · exact .inr ⟨_, .inr (.inl ⟨rfl, by rcases hl with hl | hl <;> simp [Instr.legal, hl], by simp [Instr.opcode, operandCount]⟩), ht⟩
  | jf a b =>
    rcases commit_withRR_cases h with ⟨va, vb, ha, hb, h | ⟨k, hk, -⟩⟩ | ⟨hl, ht⟩
    · cases h; exact .inl (.jf ha hb)
    · cases hk
    · exact .inr ⟨_, .inr (.inl ⟨rfl, by rcases hl with hl | hl <;> simp [Instr.legal, hl], by simp [Instr.opcode, operandCount]⟩), ht⟩
  | jmp a =>
    rcases commit_withR_cases h with ⟨va, ha, h | ⟨k, hk, -⟩⟩ | ⟨hl, ht⟩
    · cases h; exact .inl (.jmp ha)
    · cases hk
    · exact .inr ⟨_, .inr (.inl ⟨rfl, by simp [Instr.legal, hl], by simp [Instr.opcode, operandCount]⟩), ht⟩
  | out a =>
    rcases commit_withR_cases h with ⟨va, ha, h | ⟨k, hk, -⟩⟩ | ⟨hl, ht⟩
    · cases h; exact .inl (.out ha)
    · cases hk
    · exact .inr ⟨_, .inr (.inl ⟨rfl, by simp [Instr.legal, hl], by simp [Instr.opcode, operandCount]⟩), ht⟩
  | push a =>
    rcases commit_withR_cases h with ⟨va, ha, h⟩ | ⟨hl, ht⟩
    · rcases push_map_cases (s := s) (v := va) (f := advance 2) rfl with ⟨room, hr⟩ | ⟨-, hr⟩
      · rw [hr] at h
        simp only [Except.ok.injEq, reduceCtorEq, false_and, exists_false, or_false] at h
        subst h
        exact .inl (.push ha room)
      · rw [hr] at h
        simp only [Except.error.injEq, reduceCtorEq, false_or, exists_eq_left'] at h
        refine .inr ⟨_, .inr (.inr ⟨?_, rfl⟩), h⟩
        simp [Instr.legal, legal_of_resolve ha]
    · exact .inr ⟨_, .inr (.inl ⟨rfl, by simp [Instr.legal, hl], by simp [Instr.opcode, operandCount]⟩), ht⟩
  | call a =>
    rcases commit_withR_cases h with ⟨va, ha, h⟩ | ⟨hl, ht⟩
    · rcases push_map_cases (s := s) (v := (s.pc + 2)) (f := setPc va) rfl with ⟨room, hr⟩ | ⟨-, hr⟩
      · rw [hr] at h
        simp only [Except.ok.injEq, reduceCtorEq, false_and, exists_false, or_false] at h
        subst h
        exact .inl (.call ha room)
      · rw [hr] at h
        simp only [Except.error.injEq, reduceCtorEq, false_or, exists_eq_left'] at h
        refine .inr ⟨_, .inr (.inr ⟨?_, rfl⟩), h⟩
        simp [Instr.legal, legal_of_resolve ha]
    · exact .inr ⟨_, .inr (.inl ⟨rfl, by simp [Instr.legal, hl], by simp [Instr.opcode, operandCount]⟩), ht⟩
  | pop a =>
    rcases commit_withW_cases h with ⟨r, ha, h⟩ | ⟨hl, ht⟩
    · rcases pop_map_cases (s := s) (f := fun (v, t) => advance 2 (writeReg r v t)) rfl with ⟨l, v, hs, hr⟩ | ⟨-, hr⟩
      · rw [hr] at h
        simp only [Except.ok.injEq, reduceCtorEq, false_and, exists_false, or_false] at h
        subst h
        exact .inl (.pop ha hs)
      · rw [hr] at h
        simp only [Except.error.injEq, reduceCtorEq, false_or, exists_eq_left'] at h
        refine .inr ⟨_, .inr (.inr ⟨?_, rfl⟩), h⟩
        simp [Instr.legal, legal_of_regIndex ha]
    · exact .inr ⟨_, .inr (.inl ⟨rfl, by simp [Instr.legal, hl], by simp [Instr.opcode, operandCount]⟩), ht⟩

end Sys2Proof.Machine
end

