-- ==== Sys2Proof/Laws/Memory.lean ====
section
/-! SUPPORT. Memory: reads after writes, and that every memory operation keeps the canonical form. -/

namespace Sys2Proof.Machine

/-! ### One cell -/

theorem readByte_of_cellsOk {lo : Nat} {m : Memory} {n : Nat} (h : cellsOk lo m = true) (hn : n < lo) :
    readByte m n = unlistedByte := by
  induction m generalizing lo with
  | nil => rfl
  | cons c m ih =>
    obtain ⟨k, b⟩ := c
    simp only [cellsOk, Bool.and_eq_true, decide_eq_true_eq] at h
    have hk : k ≠ n := by omega
    simp only [readByte, hk, if_false]
    exact ih h.2 (by omega)

theorem cellsOk_mono {lo lo' : Nat} {m : Memory} (h : cellsOk lo m = true) (hl : lo' ≤ lo) : cellsOk lo' m = true := by
  cases m with
  | nil => rfl
  | cons c m =>
    obtain ⟨k, b⟩ := c
    simp only [cellsOk, Bool.and_eq_true, decide_eq_true_eq] at h ⊢
    exact ⟨⟨⟨by omega, h.1.1.2⟩, h.1.2⟩, h.2⟩

/-- The cells from the head on are canonical from the head's own key. -/
theorem cellsOk_of_head {lo k : Nat} {b : Byte} {m : Memory} (h : cellsOk lo ((k, b) :: m) = true) :
    cellsOk k ((k, b) :: m) = true := by
  simp only [cellsOk, Bool.and_eq_true, decide_eq_true_eq] at h ⊢
  exact ⟨⟨⟨Nat.le_refl k, h.1.1.2⟩, h.1.2⟩, h.2⟩

theorem cellsOk_writeByte {lo : Nat} {m : Memory} {n : Nat} {v : Byte} (h : cellsOk lo m = true) (hl : lo ≤ n)
    (hn : n < 2 * memWords) : cellsOk lo (writeByte m n v) = true := by
  induction m generalizing lo with
  | nil =>
    unfold writeByte
    split <;> simp_all [cellsOk]
  | cons c m ih =>
    obtain ⟨k, b⟩ := c
    simp only [cellsOk, Bool.and_eq_true, decide_eq_true_eq] at h
    obtain ⟨⟨⟨h1, h2⟩, h3⟩, h4⟩ := h
    unfold writeByte
    split
    · split
      · simp only [cellsOk, Bool.and_eq_true, decide_eq_true_eq]
        exact ⟨⟨⟨h1, h2⟩, h3⟩, h4⟩
      · simp only [cellsOk, Bool.and_eq_true, decide_eq_true_eq]
        exact ⟨⟨⟨hl, hn⟩, by assumption⟩, ⟨⟨by omega, h2⟩, h3⟩, h4⟩
    · split
      · split
        · exact cellsOk_mono h4 (by omega)
        · simp only [cellsOk, Bool.and_eq_true, decide_eq_true_eq]
          exact ⟨⟨⟨hl, hn⟩, by assumption⟩, cellsOk_mono h4 (by omega)⟩
      · simp only [cellsOk, Bool.and_eq_true, decide_eq_true_eq]
        exact ⟨⟨⟨h1, h2⟩, h3⟩, ih h4 (by omega)⟩

theorem wf_writeByte {m : Memory} {n : Nat} {v : Byte} (h : m.wf = true) (hn : n < 2 * memWords) :
    Memory.wf (writeByte m n v) = true :=
  cellsOk_writeByte h (Nat.zero_le n) hn

/-- Reading another cell after a write: no hypothesis on the memory. -/
theorem readByte_writeByte_ne {m : Memory} {n k : Nat} {v : Byte} (h : k ≠ n) :
    readByte (writeByte m n v) k = readByte m k := by
  induction m with
  | nil =>
    unfold writeByte
    split
    · rfl
    · simp [readByte, Ne.symm h]
  | cons c m ih =>
    obtain ⟨j, b⟩ := c
    unfold writeByte
    split
    · split
      · rfl
      · simp [readByte, Ne.symm h]
    · split
      · next hnj =>
        subst hnj
        split <;> simp [readByte, Ne.symm h]
      · simp only [readByte, ih]

/-- Reading the cell just written, in canonical memory. -/
theorem readByte_writeByte_same {lo : Nat} {m : Memory} {n : Nat} {v : Byte} (h : cellsOk lo m = true) :
    readByte (writeByte m n v) n = v := by
  induction m generalizing lo with
  | nil =>
    unfold writeByte
    split
    · next hv => simp [readByte, hv]
    · simp [readByte]
  | cons c m ih =>
    obtain ⟨j, b⟩ := c
    have hm : cellsOk (j + 1) m = true := by
      simp only [cellsOk, Bool.and_eq_true] at h
      exact h.2
    unfold writeByte
    split
    · next hlt =>
      split
      · next hv =>
        rw [hv]
        have hj : j ≠ n := by omega
        simp only [readByte, hj, if_false]
        exact readByte_of_cellsOk hm (by omega)
      · simp [readByte]
    · split
      · next hnj =>
        subst hnj
        split
        · next hv => rw [hv]; exact readByte_of_cellsOk hm (by omega)
        · simp [readByte]
      · next hne =>
        have hj : j ≠ n := fun e => hne e.symm
        simp only [readByte, hj, if_false]
        exact ih hm

/-- Two canonical memories with the same cells are the same list: equal memories are equal data. -/
theorem eq_of_readByte {lo : Nat} {m m' : Memory} (h : cellsOk lo m = true) (h' : cellsOk lo m' = true)
    (e : ∀ n, readByte m n = readByte m' n) : m = m' := by
  induction m generalizing lo m' with
  | nil =>
    cases m' with
    | nil => rfl
    | cons c m' =>
      obtain ⟨k, b⟩ := c
      simp only [cellsOk, Bool.and_eq_true, decide_eq_true_eq] at h'
      exact absurd (by simpa [readByte] using (e k).symm) h'.1.2
  | cons c m ih =>
    obtain ⟨k, b⟩ := c
    have hc := h
    simp only [cellsOk, Bool.and_eq_true, decide_eq_true_eq] at h
    cases m' with
    | nil => exact absurd (by simpa [readByte] using e k) h.1.2
    | cons c' m' =>
      obtain ⟨k', b'⟩ := c'
      have hc' := h'
      simp only [cellsOk, Bool.and_eq_true, decide_eq_true_eq] at h'
      have hk : k = k' := by
        rcases Nat.lt_trichotomy k k' with hlt | heq | hlt
        · have := e k
          rw [readByte_of_cellsOk (lo := k') (n := k) (cellsOk_of_head hc') hlt] at this
          exact absurd (by simpa [readByte] using this) h.1.2
        · exact heq
        · have := e k'
          rw [readByte_of_cellsOk (lo := k) (n := k') (cellsOk_of_head hc) hlt] at this
          exact absurd (by simpa [readByte] using this.symm) h'.1.2
      subst hk
      have hb : b = b' := by simpa [readByte] using e k
      subst hb
      have hm : m = m' := by
        refine ih h.2 h'.2 fun n => ?_
        by_cases hn : k = n
        · subst hn
          rw [readByte_of_cellsOk h.2 (Nat.lt_succ_self k), readByte_of_cellsOk h'.2 (Nat.lt_succ_self k)]
        · simpa [readByte, hn] using e n
      rw [hm]

/-! ### One word -/

theorem wf_writeWord {m : Memory} {a : Nat} {v : Word} (h : m.wf = true) (ha : a < memWords) :
    Memory.wf (writeWord m a v) = true :=
  wf_writeByte (wf_writeByte h (by omega)) (by omega)

theorem readByte_writeWord_ne {m : Memory} {a n : Nat} {v : Word} (h : n ≠ 2 * a) (h' : n ≠ 2 * a + 1) :
    readByte (writeWord m a v) n = readByte m n := by
  rw [writeWord, readByte_writeByte_ne h', readByte_writeByte_ne h]

theorem readWord_writeWord_ne {m : Memory} {a k : Nat} {v : Word} (h : k ≠ a) :
    readWord (writeWord m a v) k = readWord m k := by
  simp only [readWord]
  rw [readByte_writeWord_ne (by omega) (by omega), readByte_writeWord_ne (by omega) (by omega)]

theorem append_extract_bytes (v : Word) : v.extractLsb' 8 8 ++ v.extractLsb' 0 8 = v := by
  apply BitVec.eq_of_getLsbD_eq
  intro i hi
  simp only [BitVec.getLsbD_append, BitVec.getLsbD_extractLsb']
  split
  · next h => simp [h]
  · next h => simp [show i - 8 < 8 by omega, show 8 + (i - 8) = i by omega]

theorem readWord_writeWord_same {m : Memory} {a : Nat} {v : Word} (h : m.wf = true) (ha : a < memWords) :
    readWord (writeWord m a v) a = v := by
  simp only [readWord, writeWord]
  rw [readByte_writeByte_same (wf_writeByte h (by omega)), readByte_writeByte_ne (by omega),
    readByte_writeByte_same h]
  exact append_extract_bytes v

/-! ### A run of words -/

theorem wf_storeWords {ws : List Word} {a : Nat} {m : Memory} (h : m.wf = true) :
    Memory.wf (storeWords ws a m) = true := by
  induction ws generalizing a m with
  | nil => exact h
  | cons w ws ih =>
    simp only [storeWords]
    split
    · exact h
    · next ha => exact ih (wf_writeWord h (by omega))

theorem readWord_storeWords_lt {ws : List Word} {a k : Nat} {m : Memory} (h : k < a) :
    readWord (storeWords ws a m) k = readWord m k := by
  induction ws generalizing a m with
  | nil => rfl
  | cons w ws ih =>
    simp only [storeWords]
    split
    · rfl
    · rw [ih (by omega), readWord_writeWord_ne (by omega)]

/-- What a word reads as after a run of words was stored from `a` on. -/
theorem readWord_storeWords {ws : List Word} {a k : Nat} {m : Memory} (h : m.wf = true) (hk : a + k < memWords) :
    readWord (storeWords ws a m) (a + k) = ws.getD k (readWord m (a + k)) := by
  induction ws generalizing a k m with
  | nil => simp [storeWords]
  | cons w ws ih =>
    simp only [storeWords, show ¬memWords ≤ a by omega, if_false]
    cases k with
    | zero =>
      rw [readWord_storeWords_lt (by omega)]
      simpa using readWord_writeWord_same h (by omega)
    | succ k =>
      have := ih (a := a + 1) (k := k) (wf_writeWord (v := w) h (by omega : a < memWords)) (by omega)
      rw [show a + (k + 1) = a + 1 + k by omega, this, readWord_writeWord_ne (by omega)]
      simp

end Sys2Proof.Machine
end

