-- ==== Sys2Proof/Laws/PerInstr.lean ====
section
/-! SUPPORT. A fact about every instruction as syntax, one lemma for each constructor: its words are as many as its
opcode's format has (`30_encoding.md` R81), at least 1 and at most 4 (R80). -/

namespace Sys2Proof.Laws.EncodedLength

/-- The words of a well-formed instruction are 1 + operand_count of its opcode, and never more than 4. -/
def Statement (i : Instr) : Prop :=
  i.wf = true → (encode i).length = 1 + operandCount i.opcode ∧ (encode i).length ≤ 4

theorem halt : Statement .halt := fun _ => ⟨rfl, by simp [encode, encodeOperands]⟩
theorem set (a : Dst) (b : Src) : Statement (.set a b) := fun _ => ⟨rfl, by simp [encode, encodeOperands]⟩
theorem push (a : Src) : Statement (.push a) := fun _ => ⟨rfl, by simp [encode, encodeOperands]⟩
theorem pop (a : Dst) : Statement (.pop a) := fun _ => ⟨rfl, by simp [encode, encodeOperands]⟩
theorem eq (a : Dst) (b c : Src) : Statement (.eq a b c) := fun _ => ⟨rfl, by simp [encode, encodeOperands]⟩
theorem gt (a : Dst) (b c : Src) : Statement (.gt a b c) := fun _ => ⟨rfl, by simp [encode, encodeOperands]⟩
theorem jmp (a : Src) : Statement (.jmp a) := fun _ => ⟨rfl, by simp [encode, encodeOperands]⟩
theorem jt (a b : Src) : Statement (.jt a b) := fun _ => ⟨rfl, by simp [encode, encodeOperands]⟩
theorem jf (a b : Src) : Statement (.jf a b) := fun _ => ⟨rfl, by simp [encode, encodeOperands]⟩
theorem add (a : Dst) (b c : Src) : Statement (.add a b c) := fun _ => ⟨rfl, by simp [encode, encodeOperands]⟩
theorem mult (a : Dst) (b c : Src) : Statement (.mult a b c) := fun _ => ⟨rfl, by simp [encode, encodeOperands]⟩
theorem mod (a : Dst) (b c : Src) : Statement (.mod a b c) := fun _ => ⟨rfl, by simp [encode, encodeOperands]⟩
theorem and (a : Dst) (b c : Src) : Statement (.and a b c) := fun _ => ⟨rfl, by simp [encode, encodeOperands]⟩
theorem or (a : Dst) (b c : Src) : Statement (.or a b c) := fun _ => ⟨rfl, by simp [encode, encodeOperands]⟩
theorem not (a : Dst) (b : Src) : Statement (.not a b) := fun _ => ⟨rfl, by simp [encode, encodeOperands]⟩
theorem rmem (a : Dst) (b : Src) : Statement (.rmem a b) := fun _ => ⟨rfl, by simp [encode, encodeOperands]⟩
theorem wmem (a b : Src) : Statement (.wmem a b) := fun _ => ⟨rfl, by simp [encode, encodeOperands]⟩
theorem call (a : Src) : Statement (.call a) := fun _ => ⟨rfl, by simp [encode, encodeOperands]⟩
theorem ret : Statement .ret := fun _ => ⟨rfl, by simp [encode, encodeOperands]⟩
theorem out (a : Src) : Statement (.out a) := fun _ => ⟨rfl, by simp [encode, encodeOperands]⟩
theorem inp : Statement .inp := fun _ => ⟨rfl, by simp [encode, encodeOperands]⟩
theorem noop : Statement .noop := fun _ => ⟨rfl, by simp [encode, encodeOperands]⟩
theorem illegal (op : Word) : Statement (.illegal op) := fun h => by
  have hop : 22 ≤ op.toNat := by simpa [Instr.wf] using h
  simp [encode, encodeOperands, Instr.opcode, operandCount_illegal hop]

end Sys2Proof.Laws.EncodedLength
end

