-- ==== Sys2Proof/Laws/Step.lean ====
section
/-! SUPPORT. Everything a fetch and a step can do, said once. -/

namespace Sys2Proof.Machine

/-! ### The fetch window -/

theorem length_fetchWords (m : Memory) (n a : Nat) : (fetchWords m n a).length = min n (memWords - a) := by
  induction n generalizing a with
  | zero => simp [fetchWords]
  | succ n ih =>
    unfold fetchWords
    split
    · simp; omega
    · simp only [List.length_cons, ih]
      omega

theorem getElem_fetchWords {m : Memory} {n a k : Nat} (h : k < (fetchWords m n a).length) :
    (fetchWords m n a)[k] = readWord m (a + k) := by
  induction n generalizing a k with
  | zero => simp [fetchWords] at h
  | succ n ih =>
    unfold fetchWords at h ⊢
    split at h
    · simp at h
    · next ha =>
      simp only [ha, if_false]
      cases k with
      | zero => rfl
      | succ k =>
        simp only [List.getElem_cons_succ]
        rw [ih]
        congr 1
        omega

theorem fetchWindow_eq_nil {s : State} : fetchWindow s = [] ↔ memWords ≤ s.pc.toNat := by
  rw [← List.length_eq_zero_iff, fetchWindow, length_fetchWords]
  simp only [maxWords]
  omega

theorem head?_fetchWindow {s : State} (h : s.pc.toNat < memWords) :
    (fetchWindow s).head? = some (readWord s.mem s.pc.toNat) := by
  unfold fetchWindow maxWords fetchWords
  simp [show ¬memWords ≤ s.pc.toNat by omega]

/-- The decoder's refusals of a fetch window are the two fetch faults. -/
theorem decode_fetchWindow_eq_error {s : State} {e : DecodeError} :
    decode (fetchWindow s) = .error e ↔
      (memWords ≤ s.pc.toNat ∧ e = .noOpcode) ∨
      (s.pc.toNat < memWords ∧ memWords ≤ s.pc.toNat + operandCount (readWord s.mem s.pc.toNat) ∧
        e = .truncated (readWord s.mem s.pc.toNat)) := by
  have hlen := length_fetchWords s.mem maxWords s.pc.toNat
  rw [decode_eq_error, fetchWindow_eq_nil]
  refine or_congr Iff.rfl ?_
  have hcount : ∀ op, operandCount op ≤ 3 := by
    intro op
    unfold operandCount
    split <;> omega
  constructor
  · rintro ⟨op, rest, hw, hlt, rfl⟩
    have hpc : s.pc.toNat < memWords := by
      by_contra hn
      rw [fetchWindow_eq_nil.mpr (by omega)] at hw
      simp at hw
    have hop := head?_fetchWindow hpc
    rw [hw] at hop
    simp only [List.head?_cons, Option.some.injEq] at hop
    subst hop
    unfold fetchWindow at hw
    rw [hw] at hlen
    have := hcount (readWord s.mem s.pc.toNat)
    simp only [List.length_cons, maxWords] at hlen
    exact ⟨hpc, by omega, rfl⟩
  · rintro ⟨hpc, hle, rfl⟩
    have hop := head?_fetchWindow hpc
    rcases hw : fetchWindow s with _ | ⟨op, rest⟩
    · rw [hw] at hop
      simp at hop
    · rw [hw] at hop
      simp only [List.head?_cons, Option.some.injEq] at hop
      subst hop
      unfold fetchWindow at hw
      rw [hw] at hlen
      simp only [List.length_cons, maxWords] at hlen
      exact ⟨_, rest, rfl, by omega, rfl⟩

/-! ### The step -/

theorem runOver_eq_none {s : State} : runOver s = none ↔ s.runState = .running := by
  unfold runOver
  split <;> simp_all

theorem step_running {s : State} (h : s.runState = .running) : step s = cycle s := by
  simp [step, runOver_eq_none.mpr h]

theorem step_not_running {s t : State} (h : s.runState ≠ .running) : step s ≠ .next t := by
  unfold step
  split
  · simp
  · next e => exact absurd (runOver_eq_none.mp e) h

theorem cycle_decoded {s : State} {i : Instr} {rest : List Word} (h : decode (fetchWindow s) = .ok (i, rest)) :
    cycle s = exec i s := by
  simp [cycle, h]

/-- All a step can do: nothing unless Running; else a fetch fault, or the decoded instruction. -/
theorem step_cases {s t : State} (h : step s = .next t) :
    s.runState = .running ∧
    ((memWords ≤ s.pc.toNat ∧ t = takeFault .memoryOutOfRange none s) ∨
     (s.pc.toNat < memWords ∧ memWords ≤ s.pc.toNat + operandCount (readWord s.mem s.pc.toNat) ∧
        t = takeFault .memoryOutOfRange (some (readWord s.mem s.pc.toNat)) s) ∨
     (s.pc.toNat < memWords ∧ ∃ i rest, decode (fetchWindow s) = .ok (i, rest) ∧
        i.opcode = readWord s.mem s.pc.toNat ∧ i.wf = true ∧ exec i s = .next t)) := by
  have hr : s.runState = .running := by
    by_contra hn
    exact step_not_running hn h
  refine ⟨hr, ?_⟩
  rw [step_running hr] at h
  rcases hd : decode (fetchWindow s) with e | ⟨i, rest⟩
  · rcases decode_fetchWindow_eq_error.mp hd with ⟨h1, rfl⟩ | ⟨h1, h2, rfl⟩
    · left
      simp only [cycle, hd, Host.Outcome.next.injEq] at h
      exact ⟨h1, h.symm⟩
    · right; left
      simp only [cycle, hd, Host.Outcome.next.injEq] at h
      exact ⟨h1, h2, h.symm⟩
  · right; right
    have hpc : s.pc.toNat < memWords := by
      by_contra hn
      rw [fetchWindow_eq_nil.mpr (by omega)] at hd
      simp [decode] at hd
    have ⟨ho, hw⟩ := decode_opcode hd
    rw [head?_fetchWindow hpc] at ho
    rw [cycle_decoded hd] at h
    exact ⟨hpc, i, rest, rfl, (Option.some.inj ho).symm, hw, h⟩

end Sys2Proof.Machine
end

