-- ==== Sys2Proof/Tests/Slice0.lean ====
section
/-! SUPPORT. The model's own tests. Expected results come from `95_test_vectors.md` and from the encoding tables of
`30_encoding.md`; each section names its source. The last part holds a witness for the hypotheses of each obligation. -/

namespace Sys2Proof.Tests

open Sys2Proof Sys2Proof.Machine

/-! ### Helpers -/

/-- `s` with `ws` in Memory from its pc on. -/
def placed (ws : List Word) (s : State) : State := setMem (storeWords ws s.pc.toNat s.mem) s

/-- The reset state with `ws` from address 0 on. -/
def start (ws : List Word) : State := placed ws State.reset

/-- The reset state with pc `p` and `ws` in Memory from there on. -/
def startAt (p : Word) (ws : List Word) : State := placed ws (setPc p State.reset)

/-- The next state, if the outcome is one. -/
def nextOf (r : Result) : Option State :=
  match r with
  | .next t => some t
  | .fault _ => none
  | .refused _ => none

theorem eq_next_of_nextOf {r : Result} {t : State} (h : nextOf r = some t) : r = .next t := by
  cases r <;> simp_all [nextOf]

/-- One step, seen through `f`. -/
def see {α : Type} (f : State → α) (s : State) : Option α := (nextOf (step s)).map f

/-- The next step is the fault entry of `k` with opcode `op`, and changes nothing else. -/
def faultsWith (k : FaultKind) (op : Option Word) (s : State) : Bool :=
  decide (nextOf (step s) =
    some { s with runState := .faulted, fault := some { kind := k, pc := s.pc, opcode := op } })

/-- `s` with a stack of at most `n` entries, now `l`. -/
def withStack (n : Option Nat) (l : List Word) (s : State) : State :=
  { s with stack := l, config := { s.config with stackCapacity := n } }

/-! ### Ill-formed terms are refused, one for each check of WellFormed.lean -/

theorem test_wf_src_invalid_holds_no_register_code : Src.wf (.invalid 32775) = false := by decide
theorem test_wf_src_invalid_holds_no_literal : (Instr.push (.invalid 5)).wf = false := by decide
theorem test_wf_dst_invalid_holds_no_register_code : Dst.wf (.invalid 32768) = false := by decide
theorem test_wf_dst_bad_in_instr : (Instr.set (.invalid 32775) (.lit 1)).wf = false := by decide
theorem test_wf_third_operand : (Instr.add (.reg 0) (.lit 1) (.invalid 0)).wf = false := by decide
theorem test_wf_illegal_holds_no_opcode : (Instr.illegal 21).wf = false := by decide
theorem test_wf_illegal_in_is_not_20 : (Instr.illegal 20).wf = false := by decide
theorem test_legal_refuses_invalid_operand : (Instr.wmem (.lit 1) (.invalid 32776)).legal = false := by decide
theorem test_legal_refuses_in : Instr.inp.legal = false ∧ (Instr.illegal 22).legal = false := by decide
theorem test_config_wf_refuses_zero_exit_code : ¬ Config.wf { Config.reference with faultExitCode := 0 } := by decide
theorem test_memory_wf_refuses_bad_cells :
    Memory.wf [(3, 1), (2, 1)] = false ∧ Memory.wf [(3, 0)] = false ∧ Memory.wf [(65536, 1)] = false ∧
    Memory.wf [(0, 1), (65535, 1)] = true := by decide

/-! ### Decoding: one word list for each constructor, written out from `30_encoding.md` R81 and R87 -/

theorem test_decode_halt : decode [0x0000] = .ok (.halt, []) := by rfl

theorem test_decode_set : decode [0x0001, 0x8000, 0x0004] = .ok (.set (.reg 0) (.lit 4), []) := by rfl

theorem test_decode_push : decode [0x0002, 0x8002] = .ok (.push (.reg 2), []) := by rfl

theorem test_decode_pop : decode [0x0003, 0x8003] = .ok (.pop (.reg 3), []) := by rfl

theorem test_decode_eq : decode [0x0004, 0x8000, 0x8001, 0x7FFF] = .ok (.eq (.reg 0) (.reg 1) (.lit 32767), []) := by
  rfl

theorem test_decode_gt : decode [0x0005, 0x8002, 0x8002, 0x0001] = .ok (.gt (.reg 2) (.reg 2) (.lit 1), []) := by rfl

theorem test_decode_jmp : decode [0x0006, 0x0064] = .ok (.jmp (.lit 100), []) := by rfl

theorem test_decode_jt : decode [0x0007, 0x8000, 0x0032] = .ok (.jt (.reg 0) (.lit 50), []) := by rfl

theorem test_decode_jf : decode [0x0008, 0x8001, 0x8002] = .ok (.jf (.reg 1) (.reg 2), []) := by rfl

theorem test_decode_add : decode [0x0009, 0x8000, 0x7FFF, 0x0001] = .ok (.add (.reg 0) (.lit 32767) (.lit 1), []) := by
  rfl

theorem test_decode_mult : decode [0x000A, 0x8007, 0x3039, 0x8006] = .ok (.mult (.reg 7) (.lit 12345) (.reg 6), []) := by
  rfl

theorem test_decode_mod : decode [0x000B, 0x0005, 0x0001, 0x0000] = .ok (.mod (.invalid 5) (.lit 1) (.lit 0), []) := by
  rfl

theorem test_decode_and : decode [0x000C, 0x8000, 0x8001, 0x8002] = .ok (.and (.reg 0) (.reg 1) (.reg 2), []) := by
  rfl

theorem test_decode_or : decode [0x000D, 0x8005, 0x8004, 0x2AAA] = .ok (.or (.reg 5) (.reg 4) (.lit 10922), []) := by
  rfl

theorem test_decode_not : decode [0x000E, 0x8003, 0x0000] = .ok (.not (.reg 3) (.lit 0), []) := by rfl

theorem test_decode_rmem : decode [0x000F, 0x8000, 0x00C8] = .ok (.rmem (.reg 0) (.lit 200), []) := by rfl

theorem test_decode_wmem : decode [0x0010, 0x00C8, 0x8000] = .ok (.wmem (.lit 200) (.reg 0), []) := by rfl

theorem test_decode_call : decode [0x0011, 0x8008] = .ok (.call (.invalid 32776), []) := by rfl

theorem test_decode_ret : decode [0x0012] = .ok (.ret, []) := by rfl

theorem test_decode_out : decode [0x0013, 0xFFFF] = .ok (.out (.invalid 65535), []) := by rfl

theorem test_decode_inp : decode [0x0014] = .ok (.inp, []) := by rfl

theorem test_decode_noop : decode [0x0015] = .ok (.noop, []) := by rfl

theorem test_decode_illegal : decode [0x270F] = .ok (.illegal 9999, []) := by rfl

/-- IN takes no operand word (`95_test_vectors.md` 2.8). -/
theorem test_decode_in_leaves_the_next_word : decode [20, 32768] = .ok (.inp, [32768]) := by rfl
theorem test_decode_no_words : decode [] = .error .noOpcode ∧ decode [9, 32768, 1] = .error (.truncated 9) :=
  ⟨rfl, rfl⟩
/-- The image bytes of `ADD r0 32767 1` (`95_test_vectors.md` 2.6). -/
theorem test_decode_bytes :
    decodeBytes [0x09, 0x00, 0x00, 0x80, 0xFF, 0x7F, 0x01, 0x00] =
      .ok (.add (.reg 0) (.lit 32767) (.lit 1), []) := by rfl
theorem test_table_word : decodeTableWord 16 2 = some (.push (.lit 0)) := by decide
theorem test_table_word_second_word :
    decodeTableWord 48 0x00C880000010 = some (.wmem (.reg 0) (.lit 200)) := by decide

/-! ### The resolver: `95_test_vectors.md` 2.1, with r0 = 11 and r7 = 77 -/

/-- r0 = 11, r7 = 77. -/
def resolverState : State := writeReg 0 11 (writeReg 7 77 State.reset)

theorem test_resolve_literals_and_registers :
    resolve resolverState (decodeSrc 32767) = .ok 32767 ∧ resolve resolverState (decodeSrc 32768) = .ok 11 ∧
    resolve resolverState (decodeSrc 32775) = .ok 77 := ⟨rfl, rfl, rfl⟩
theorem test_resolve_invalid :
    resolve resolverState (decodeSrc 32776) = .error .invalidOperandCode ∧
    resolve resolverState (decodeSrc 65535) = .error .invalidOperandCode := ⟨rfl, rfl⟩
theorem test_regIndex :
    regIndex (decodeDst 32767) = .error .invalidOperandCode ∧ regIndex (decodeDst 32768) = .ok 0 ∧
    regIndex (decodeDst 32775) = .ok 7 ∧ regIndex (decodeDst 32776) = .error .invalidOperandCode :=
  ⟨rfl, rfl, rfl, rfl⟩

/-! ### One step of each instruction: `95_test_vectors.md` 2.2 to 2.10 -/

theorem test_halt_keeps_pc : see (fun t => (t.runState, t.pc)) (start [0]) = some (.halted, 0) := by decide
theorem test_noop_at_the_last_word :
    see (fun t => (t.runState, t.pc)) (startAt 32767 [21]) = some (.running, 32768) := by decide
theorem test_fetch_above_memory : faultsWith .memoryOutOfRange none (startAt 32768 []) = true := by decide
theorem test_set_literal :
    see (fun t => (t.regs, t.pc)) (start [1, 32768, 4]) = some (#v[4, 0, 0, 0, 0, 0, 0, 0], 3) := by decide
theorem test_set_faults_past_memory :
    faultsWith .memoryOutOfRange (some 1) (startAt 32766 [1, 32768]) = true := by decide
theorem test_push_register_above_literals :
    see (fun t => (t.stack, t.pc)) (writeReg 2 40000 (start [2, 32770])) = some ([40000], 2) := by decide
theorem test_push_on_a_full_stack :
    faultsWith .stackOverflow (some 2) (withStack (some 1) [9] (start [2, 1])) = true := by decide
theorem test_pop_takes_the_tail :
    see (fun t => (t.regs[3], t.stack, t.pc)) (withStack none [5, 9] (start [3, 32771])) = some (9, [5], 2) := by
  decide
theorem test_pop_checks_its_operand_first :
    faultsWith .invalidOperandCode (some 3) (start [3, 5]) = true ∧
    faultsWith .stackUnderflow (some 3) (start [3, 32768]) = true := by decide
theorem test_eq_is_on_sixteen_bits :
    see (fun t => (t.regs[0], t.pc)) (writeReg 0 9 (writeReg 1 65535 (start [4, 32768, 32769, 32767]))) =
      some (0, 4) := by decide
theorem test_eq_of_equals : see (fun t => t.regs[0]) (start [4, 32768, 5, 5]) = some 1 := by decide
theorem test_gt_is_unsigned :
    see (fun t => (t.regs[0], t.pc)) (writeReg 1 32768 (start [5, 32768, 32769, 32767])) = some (1, 4) := by decide
theorem test_gt_reads_before_it_writes :
    see (fun t => t.regs[2]) (writeReg 2 7 (start [5, 32770, 32770, 1])) = some 1 := by decide
theorem test_jmp_to_a_register_value :
    see (fun t => (t.pc, t.runState)) (writeReg 0 40000 (start [6, 32768])) = some (40000, .running) := by decide
theorem test_jt_any_non_zero :
    see (fun t => t.pc) (writeReg 0 32768 (start [7, 32768, 50])) = some 50 ∧
    see (fun t => t.pc) (start [7, 0, 100]) = some 3 := by decide
theorem test_jt_not_taken_still_decodes_b : faultsWith .invalidOperandCode (some 7) (start [7, 0, 40000]) = true := by
  decide
theorem test_jf_on_zero :
    see (fun t => t.pc) (writeReg 2 17 (start [8, 32769, 32770])) = some 17 ∧
    see (fun t => t.pc) (start [8, 1, 100]) = some 3 := by decide
theorem test_jf_not_taken_still_decodes_b : faultsWith .invalidOperandCode (some 8) (start [8, 7, 32776]) = true := by
  decide
theorem test_call_at_the_end_of_memory :
    see (fun t => (t.stack, t.pc)) (startAt 32766 [17, 0]) = some ([32768], 0) := by decide
theorem test_call_on_a_full_stack :
    faultsWith .stackOverflow (some 17) (withStack (some 1) [9] (start [17, 5])) = true := by decide
theorem test_ret_pops_the_pc :
    see (fun t => (t.stack, t.pc)) (withStack none [12] (startAt 50 [18])) = some ([], 12) := by decide
theorem test_ret_on_an_empty_stack : faultsWith .stackUnderflow (some 18) (start [18]) = true := by decide
theorem test_add_wraps : see (fun t => (t.regs[0], t.pc)) (start [9, 32768, 32767, 1]) = some (0, 4) := by decide
theorem test_add_reduces_register_values :
    see (fun t => t.regs[0]) (writeReg 1 40000 (start [9, 32768, 32769, 0])) = some 7232 := by decide
theorem test_mult : see (fun t => (t.regs[0], t.pc)) (start [10, 32768, 12345, 6789]) = some (22429, 4) := by decide
theorem test_mult_of_large_registers :
    see (fun t => t.regs[0]) (writeReg 1 65535 (start [10, 32768, 32769, 32769])) = some 1 := by decide
theorem test_mod_is_not_reduced :
    see (fun t => (t.regs[0], t.pc)) (writeReg 1 40000 (start [11, 32768, 32769, 32767])) = some (7233, 4) := by
  decide
theorem test_mod_by_zero :
    faultsWith .divisionByZero (some 11) (writeReg 0 9 (start [11, 32768, 5, 0])) = true ∧
    faultsWith .invalidOperandCode (some 11) (start [11, 5, 1, 0]) = true := by decide
theorem test_and_has_no_mask :
    see (fun t => (t.regs[0], t.pc)) (writeReg 1 40000 (writeReg 2 65535 (start [12, 32768, 32769, 32770]))) =
      some (40000, 4) := by decide
theorem test_or_has_no_mask :
    see (fun t => (t.regs[0], t.pc)) (writeReg 1 32768 (start [13, 32768, 32769, 1])) = some (32769, 4) := by decide
theorem test_or_of_literals : see (fun t => t.regs[0]) (start [13, 32768, 21845, 10922]) = some 32767 := by decide
theorem test_not_clears_bit_15 :
    see (fun t => (t.regs[0], t.pc)) (writeReg 1 40000 (start [14, 32768, 32769])) = some (25535, 3) := by decide
theorem test_not_literal : see (fun t => t.regs[0]) (start [14, 32768, 1234]) = some 31533 := by decide
theorem test_rmem_gives_the_raw_word :
    see (fun t => (t.regs[0], t.pc)) (setMem (writeWord (start [15, 32768, 200]).mem 200 40000)
      (start [15, 32768, 200])) = some (40000, 3) := by decide
theorem test_rmem_above_memory :
    faultsWith .memoryOutOfRange (some 15) (writeReg 0 3 (writeReg 1 32768 (start [15, 32768, 32769]))) = true := by
  decide
theorem test_wmem_over_its_own_operand :
    see (fun t => (readWord t.mem 1, readWord t.mem 2, t.pc)) (start [16, 1, 5]) = some (5, 5, 3) ∧
    see (fun t => readWord t.mem 1) (start [16, 1, 7]) = some 7 := by decide
theorem test_wmem_above_memory :
    faultsWith .memoryOutOfRange (some 16) (writeReg 1 32768 (start [16, 32769, 5])) = true := by decide
theorem test_out_emits_the_low_byte :
    see (fun t => (t.output, t.pc)) (start [19, 321]) = some ([0x41], 2) := by decide
theorem test_out_appends :
    see (fun t => t.output) { writeReg 0 40000 (start [19, 32768]) with output := [0x0A] } = some [0x0A, 0x40] := by
  decide
theorem test_in_is_unknown : faultsWith .unknownOpcode (some 20) (start [20, 32768]) = true := by decide
theorem test_illegal_opcodes :
    faultsWith .unknownOpcode (some 22) (start [22]) = true ∧
    faultsWith .unknownOpcode (some 65535) (start [65535]) = true := by decide
theorem test_operand_past_memory_is_reported_before_its_class :
    faultsWith .memoryOutOfRange (some 6) (startAt 32767 [6]) = true := by decide

/-! ### Loading and the host: `95_test_vectors.md` 2.11, `60_exceptions.md` R215 -/

/-- The reference configuration with another ODD_IMAGE_POLICY. -/
def policy (p : OddImagePolicy) : Config := { Config.reference with oddImagePolicy := p }

theorem test_load_is_little_endian : readWord (boot Config.reference [0x34, 0x12]).mem 0 = 4660 := by decide
theorem test_load_odd_policies :
    (boot (policy .fault) [1, 0, 7]).fault = some { kind := .loadOddLength, pc := 0, opcode := none } ∧
    readWord (boot (policy .dropTrailing) [1, 0, 7]).mem 1 = 0 ∧
    readWord (boot (policy .padZero) [1, 0, 7]).mem 1 = 7 := by decide
theorem test_boot_of_nothing_is_reset : boot Config.reference [] = State.reset := by decide
theorem test_fault_codes :
    [FaultKind.invalidOperandCode, .memoryOutOfRange, .stackUnderflow, .unknownOpcode, .divisionByZero, .loadOverflow,
      .loadOddLength, .stackOverflow].map faultCode = [1, 2, 3, 4, 5, 6, 7, 8] := by decide
theorem test_exit_status :
    exitStatus State.reset = none ∧ exitStatus (setRunState .halted State.reset) = some 0 ∧
    exitStatus (boot Config.reference [1]) = some 1 := by decide
theorem test_withFetchWord_runs_next :
    see (fun t => (t.stack, t.pc)) (State.reset.withFetchWord 16 2) = some ([0], 2) := by decide

/-! ### Witnesses: concrete states and operands that meet the hypotheses of each obligation

`Met` predicates repeat the hypotheses that many obligations share. -/

/-- The hypotheses of `MissingOperandFaults op n`, at the last address that has an opcode and no operand. -/
abbrev MissingMet (s : State) (op : Word) (n : Nat) : Prop :=
  s.runState = .running ∧ s.pc.toNat ≤ 32767 ∧ readWord s.mem s.pc.toNat = op ∧ 32767 < s.pc.toNat + n

/-- r1 = 32767, r2 = 32768, r3 = 0. -/
def regsState : State := writeReg 1 32767 (writeReg 2 32768 State.reset)

/-- The stack has room: unbounded, or one entry below a finite capacity. -/
theorem witness_stack_has_room :
    (∀ n, regsState.config.stackCapacity = some n → regsState.stack.length < n) ∧
    (∀ n, (withStack (some 1) [] regsState).config.stackCapacity = some n →
      (withStack (some 1) [] regsState).stack.length < n) :=
  ⟨(fun _ h => nomatch h), (fun _ h => by cases h; decide)⟩

/-- The stack is full: exactly at its capacity, and beyond it. -/
theorem witness_stack_is_full :
    (withStack (some 1) [9] regsState).config.stackCapacity = some 1 ∧
    1 ≤ (withStack (some 1) [9] regsState).stack.length ∧
    (withStack (some 0) [9] regsState).config.stackCapacity = some 0 ∧
    0 ≤ (withStack (some 0) [9] regsState).stack.length := by decide

theorem witness_LoadPlacesLittleEndianPairs :
    [0x34, (0x12 : Byte)].length % 2 = 0 ∧ [0x34, (0x12 : Byte)].length ≤ 65536 ∧
    2 * 0 + 1 < [0x34, (0x12 : Byte)].length ∧ ¬ 2 * 1 + 1 < [0x34, (0x12 : Byte)].length ∧
    (List.replicate 65536 (1 : Byte)).length % 2 = 0 ∧ (List.replicate 65536 (1 : Byte)).length ≤ 65536 := by simp [-List.reduceReplicate]
theorem witness_OversizedImageIsRejected :
    65536 < (List.replicate 65538 (1 : Byte)).length ∧ (List.replicate 65538 (1 : Byte)).length % 2 = 0 ∧
    65536 < (List.replicate 65537 (1 : Byte)).length ∧ (policy .padZero).oddImagePolicy = .padZero ∧
    65537 < (List.replicate 65539 (1 : Byte)).length ∧ (policy .dropTrailing).oddImagePolicy = .dropTrailing ∧
    (List.replicate 65536 (1 : Byte)).length = 65536 ∧ 0 < 32768 ∧ 32767 < 32768 := by
  simp [policy, -List.reduceReplicate]
theorem witness_OddImageFollowsThePolicy :
    [1, 0, (7 : Byte)].length % 2 = 1 ∧ (policy .fault).oddImagePolicy = .fault ∧
    (policy .dropTrailing).oddImagePolicy = .dropTrailing ∧ (policy .padZero).oddImagePolicy = .padZero ∧
    (List.replicate 65537 (1 : Byte)).length % 2 = 1 := by simp [policy, -List.reduceReplicate]
theorem witness_FailedLoadRunsNothing :
    (boot (policy .fault) [1, 0, 7]).runState = .faulted := by decide
theorem witness_FailedLoadRunsNothing_overflow :
    (boot (policy .fault) (List.replicate 65538 1)).runState = .faulted := by
  simp [boot, imageWords, applyPolicy, policy, bind, Except.bind, memWords, length_wordsOfBytes, takeFault,
    -List.reduceReplicate]
theorem witness_DecodeOfEncodeIsTheInstruction :
    (Instr.add (.invalid 32767) (.reg 7) (.invalid 32776)).wf = true ∧ (Instr.illegal 22).wf = true ∧
    (Instr.set (.invalid 65535) (.lit 32767)).wf = true := by decide
theorem witness_EncodeOfDecodeIsTheWords :
    decode [9, 32768, 32767, 1, 5] = .ok (.add (.reg 0) (.lit 32767) (.lit 1), [5]) := by rfl
theorem witness_ResolverReadsLiteralsAndRegisters :
    (0 : Word).toNat ≤ 32767 ∧ (32767 : Word).toNat ≤ 32767 ∧ (32768 : Word).toNat = 32768 + (0 : Reg).val ∧
    (32775 : Word).toNat = 32768 + (7 : Reg).val ∧ 32776 ≤ (32776 : Word).toNat ∧ 32776 ≤ (65535 : Word).toNat := by decide
theorem witness_WriteOperandNamesARegister :
    (32768 : Word).toNat = 32768 + (0 : Reg).val ∧ (32775 : Word).toNat = 32768 + (7 : Reg).val ∧
    (32767 : Word).toNat ≤ 32767 ∧ 32776 ≤ (32776 : Word).toNat := by decide
theorem witness_StepRunsTheDecodedInstruction :
    (start [19, 65]).runState = .running ∧ decode (fetchWindow (start [19, 65])) = .ok (.out (.lit 65), [0, 0]) ∧
    (Instr.out (.lit 65)).wf = true := ⟨by decide, by rfl, by decide⟩
/-- A four-word instruction that ends with Memory. -/
theorem witness_StepRunsTheWordsAtThePc :
    let s := startAt 32764 [9, 32768, 1, 2]
    let i : Instr := .add (.reg 0) (.lit 1) (.lit 2)
    s.runState = .running ∧ i.wf = true ∧ s.pc.toNat + (encode i).length ≤ 32768 ∧
    ∀ k, (h : k < (encode i).length) → readWord s.mem (s.pc.toNat + k) = (encode i)[k] := by decide
/-- Each check of R214, and none of them: the last is WMEM, which then raises its own. -/
theorem witness_FaultsFollowTheFixedOrder :
    (startAt 32768 []).runState = .running ∧ firstFault (startAt 32768 []) = some (.memoryOutOfRange, none) ∧
    firstFault (startAt 32767 [22]) = some (.unknownOpcode, some 22) ∧
    firstFault (startAt 32765 [9, 5, 5]) = some (.memoryOutOfRange, some 9) ∧
    firstFault (start [11, 5, 1, 0]) = some (.invalidOperandCode, some 11) ∧
    firstFault (writeReg 1 32768 (start [16, 32769, 5])) = none ∧
    see (fun t => t.runState) (writeReg 1 32768 (start [16, 32769, 5])) = some .faulted := by decide
theorem witness_FetchPastMemoryFaults :
    (startAt 32768 []).runState = .running ∧ 32767 < (startAt 32768 []).pc.toNat ∧
    (startAt 32767 [2]).runState = .running ∧ (startAt 32767 [2]).pc.toNat ≤ 32767 ∧
    roles (readWord (startAt 32767 [2]).mem (startAt 32767 [2]).pc.toNat) = some [.read] ∧
    32767 < (startAt 32767 [2]).pc.toNat + [Role.read].length := by decide
theorem witness_UnknownOpcodeFaultsAtFetch :
    (startAt 32767 [20]).runState = .running ∧ (startAt 32767 [20]).pc.toNat ≤ 32767 ∧
    readWord (startAt 32767 [20]).mem 32767 = 20 ∧ 22 ≤ (readWord (startAt 32767 [22]).mem 32767).toNat ∧
    22 ≤ (readWord (start [65535]).mem 0).toNat := by decide


/-- The hypotheses of PcAfterACompletedInstruction, with some next state. -/
abbrev PcAfterMet (s : State) (i : Instr) (rest : List Word) : Prop :=
  s.runState = .running ∧ decode (fetchWindow s) = .ok (i, rest) ∧ ∃ t, step s = .next t ∧ t.runState ≠ .faulted

theorem pcAfterMet_of {s : State} {i : Instr} {rest : List Word} (hr : s.runState = .running)
    (hd : decode (fetchWindow s) = .ok (i, rest)) {r : RunState} (hs : see (fun t => t.runState) s = some r)
    (hf : r ≠ .faulted) : PcAfterMet s i rest := by
  refine ⟨hr, hd, ?_⟩
  unfold see at hs
  cases h : nextOf (step s) with
  | none => simp [h] at hs
  | some t =>
    simp only [h, Option.map_some, Option.some.injEq] at hs
    exact ⟨t, eq_next_of_nextOf h, hs ▸ hf⟩

theorem witness_PcAfterACompletedInstruction_halt : PcAfterMet (start [0]) (.halt) [0, 0, 0] :=
  pcAfterMet_of (r := .halted) rfl rfl (by decide) (by decide)
theorem witness_PcAfterACompletedInstruction_noop : PcAfterMet (startAt 32767 [21]) (.noop) [] :=
  pcAfterMet_of (r := .running) rfl rfl (by decide) (by decide)
theorem witness_PcAfterACompletedInstruction_jmp : PcAfterMet (start [6, 100]) (.jmp (.lit 100)) [0, 0] :=
  pcAfterMet_of (r := .running) rfl rfl (by decide) (by decide)
theorem witness_PcAfterACompletedInstruction_call : PcAfterMet (start [17, 100]) (.call (.lit 100)) [0, 0] :=
  pcAfterMet_of (r := .running) rfl rfl (by decide) (by decide)
theorem witness_PcAfterACompletedInstruction_ret :
    PcAfterMet (withStack none [32768] (start [18])) (.ret) [0, 0, 0] :=
  pcAfterMet_of (r := .running) rfl rfl (by decide) (by decide)
theorem witness_PcAfterACompletedInstruction_jt_taken :
    PcAfterMet (start [7, 1, 100]) (.jt (.lit 1) (.lit 100)) [0] :=
  pcAfterMet_of (r := .running) rfl rfl (by decide) (by decide)
theorem witness_PcAfterACompletedInstruction_jt_not_taken :
    PcAfterMet (startAt 32765 [7, 0, 100]) (.jt (.lit 0) (.lit 100)) [] :=
  pcAfterMet_of (r := .running) rfl rfl (by decide) (by decide)
theorem witness_PcAfterACompletedInstruction_jf_taken :
    PcAfterMet (start [8, 0, 100]) (.jf (.lit 0) (.lit 100)) [0] :=
  pcAfterMet_of (r := .running) rfl rfl (by decide) (by decide)
theorem witness_PcAfterACompletedInstruction_jf_not_taken :
    PcAfterMet (startAt 32765 [8, 1, 100]) (.jf (.lit 1) (.lit 100)) [] :=
  pcAfterMet_of (r := .running) rfl rfl (by decide) (by decide)
theorem witness_PcAfterACompletedInstruction_add :
    PcAfterMet (startAt 32764 [9, 32768, 1, 2]) (.add (.reg 0) (.lit 1) (.lit 2)) [] :=
  pcAfterMet_of (r := .running) rfl rfl (by decide) (by decide)

theorem witness_HaltEndsTheRun :
    (startAt 32767 [0]).runState = .running ∧ (startAt 32767 [0]).pc.toNat ≤ 32767 ∧
    readWord (startAt 32767 [0]).mem (startAt 32767 [0]).pc.toNat = 0 := by decide
theorem witness_NoopOnlyAdvancesPc :
    (startAt 32767 [21]).runState = .running ∧ (startAt 32767 [21]).pc = 32767 ∧
    readWord (startAt 32767 [21]).mem 32767 = 21 := by decide

/-- The illegal operands of the instruction obligations: a literal in a write position, and an invalid word in each
kind of read position. -/
theorem witness_illegal_operands :
    Dst.legal (.invalid 5) = false ∧ Dst.legal (.invalid 32776) = false ∧ Src.legal (.invalid 32776) = false ∧
    Src.legal (.invalid 65535) = false := by decide

theorem witness_SetCopiesTheValue :
    MissingMet (startAt 32767 [1]) 1 2 ∧
    Dst.legal (.invalid 5) = false ∧
    Src.legal (.invalid 32776) = false ∧
    regIndex (.reg 7) = .ok 7 ∧
    resolve regsState (.reg 2) = .ok 32768 :=
  ⟨by decide, by decide, by decide, rfl, rfl⟩
theorem witness_PushAppendsAtTheTop :
    MissingMet (startAt 32767 [2]) 2 1 ∧
    Src.legal (.invalid 32776) = false ∧
    resolve regsState (.lit 32767) = .ok 32767 ∧
    resolve (withStack (some 1) [9] regsState) (.lit 1) = .ok 1 ∧
    (withStack (some 1) [9] regsState).config.stackCapacity = some 1 ∧
    1 ≤ (withStack (some 1) [9] regsState).stack.length ∧
    (∀ n, regsState.config.stackCapacity = some n → regsState.stack.length < n) :=
  ⟨by decide, by decide, rfl, rfl, by decide, by decide, witness_stack_has_room.1⟩
theorem witness_PopMovesTheTopToARegister :
    MissingMet (startAt 32767 [3]) 3 1 ∧
    Dst.legal (.invalid 32767) = false ∧
    regIndex (.reg 7) = .ok 7 ∧
    (withStack none [9] regsState).stack = [] ++ [9] ∧
    regsState.stack = [] ∧
    resolve regsState (.reg 2) = .ok 32768 ∧
    (∀ n, regsState.config.stackCapacity = some n → regsState.stack.length < n) :=
  ⟨by decide, by decide, rfl, by decide, by decide, rfl, witness_stack_has_room.1⟩
theorem witness_EqWritesWhetherEqual :
    MissingMet (startAt 32767 [4]) 4 3 ∧
    Dst.legal (.invalid 3) = false ∧
    Src.legal (.invalid 32776) = false ∧
    regIndex (.reg 7) = .ok 7 ∧
    resolve regsState (.reg 1) = .ok 32767 ∧
    resolve regsState (.lit 32767) = .ok 32767 ∧
    resolve regsState (.reg 2) = .ok 32768 :=
  ⟨by decide, by decide, by decide, rfl, rfl, rfl, rfl⟩
theorem witness_GtWritesWhetherGreaterUnsigned :
    MissingMet (startAt 32767 [5]) 5 3 ∧
    Dst.legal (.invalid 3) = false ∧
    Src.legal (.invalid 32776) = false ∧
    regIndex (.reg 7) = .ok 7 ∧
    resolve regsState (.reg 2) = .ok 32768 ∧
    resolve regsState (.lit 32767) = .ok 32767 :=
  ⟨by decide, by decide, by decide, rfl, rfl, rfl⟩
theorem witness_JmpSetsPc :
    MissingMet (startAt 32767 [6]) 6 1 ∧
    Src.legal (.invalid 32776) = false ∧
    resolve regsState (.reg 2) = .ok 32768 ∧
    (startAt 32768 []).runState = .running ∧
    32767 < (startAt 32768 []).pc.toNat :=
  ⟨by decide, by decide, rfl, by decide, by decide⟩
theorem witness_JtJumpsWhenNonZero :
    MissingMet (startAt 32767 [7]) 7 2 ∧
    Src.legal (.invalid 32776) = false ∧
    resolve regsState (.reg 2) = .ok 32768 ∧
    resolve regsState (.reg 3) = .ok 0 ∧
    resolve regsState (.lit 50) = .ok 50 :=
  ⟨by decide, by decide, rfl, rfl, rfl⟩
theorem witness_JfJumpsWhenZero :
    MissingMet (startAt 32767 [8]) 8 2 ∧
    Src.legal (.invalid 32776) = false ∧
    resolve regsState (.reg 2) = .ok 32768 ∧
    resolve regsState (.reg 3) = .ok 0 ∧
    resolve regsState (.lit 50) = .ok 50 :=
  ⟨by decide, by decide, rfl, rfl, rfl⟩
theorem witness_CallPushesTheReturnAddress :
    MissingMet (startAt 32767 [17]) 17 1 ∧
    Src.legal (.invalid 32776) = false ∧
    resolve regsState (.lit 100) = .ok 100 ∧
    resolve (withStack (some 1) [9] regsState) (.lit 5) = .ok 5 ∧
    (withStack (some 1) [9] regsState).config.stackCapacity = some 1 ∧
    1 ≤ (withStack (some 1) [9] regsState).stack.length ∧
    (∀ n, regsState.config.stackCapacity = some n → regsState.stack.length < n) ∧
    (startAt 32768 []).runState = .running ∧
    32767 < (startAt 32768 []).pc.toNat :=
  ⟨by decide, by decide, rfl, rfl, by decide, by decide, witness_stack_has_room.1, by decide, by decide⟩
theorem witness_RetPopsThePc :
    (withStack none [32768] regsState).stack = [] ++ [32768] ∧
    regsState.stack = [] ∧
    (startAt 32768 []).runState = .running ∧
    32767 < (startAt 32768 []).pc.toNat :=
  ⟨by decide, by decide, by decide, by decide⟩
theorem witness_AddReducesTheSum :
    MissingMet (startAt 32767 [9]) 9 3 ∧
    Dst.legal (.invalid 1) = false ∧
    Src.legal (.invalid 32776) = false ∧
    regIndex (.reg 7) = .ok 7 ∧
    resolve regsState (.reg 2) = .ok 32768 ∧
    resolve regsState (.lit 32767) = .ok 32767 :=
  ⟨by decide, by decide, by decide, rfl, rfl, rfl⟩
theorem witness_MultReducesTheProduct :
    MissingMet (startAt 32767 [10]) 10 3 ∧
    Dst.legal (.invalid 1) = false ∧
    Src.legal (.invalid 32776) = false ∧
    regIndex (.reg 7) = .ok 7 ∧
    resolve regsState (.reg 2) = .ok 32768 ∧
    resolve regsState (.lit 32767) = .ok 32767 :=
  ⟨by decide, by decide, by decide, rfl, rfl, rfl⟩
theorem witness_ModGivesTheRemainderOrFaults :
    MissingMet (startAt 32767 [11]) 11 3 ∧
    Dst.legal (.invalid 5) = false ∧
    Src.legal (.invalid 32776) = false ∧
    regIndex (.reg 7) = .ok 7 ∧
    resolve regsState (.reg 2) = .ok 32768 ∧
    resolve regsState (.lit 32767) = .ok 32767 ∧
    (32767 : Word) ≠ 0 ∧
    resolve regsState (.reg 3) = .ok 0 :=
  ⟨by decide, by decide, by decide, rfl, rfl, rfl, by decide, rfl⟩
theorem witness_AndIsBitwiseOnSixteenBits :
    MissingMet (startAt 32767 [12]) 12 3 ∧
    Dst.legal (.invalid 5) = false ∧
    Src.legal (.invalid 32776) = false ∧
    regIndex (.reg 7) = .ok 7 ∧
    resolve regsState (.reg 2) = .ok 32768 ∧
    resolve regsState (.lit 32767) = .ok 32767 :=
  ⟨by decide, by decide, by decide, rfl, rfl, rfl⟩
theorem witness_OrIsBitwiseOnSixteenBits :
    MissingMet (startAt 32767 [13]) 13 3 ∧
    Dst.legal (.invalid 5) = false ∧
    Src.legal (.invalid 32776) = false ∧
    regIndex (.reg 7) = .ok 7 ∧
    resolve regsState (.reg 2) = .ok 32768 ∧
    resolve regsState (.lit 32767) = .ok 32767 :=
  ⟨by decide, by decide, by decide, rfl, rfl, rfl⟩
theorem witness_NotComplementsFifteenBits :
    MissingMet (startAt 32767 [14]) 14 2 ∧
    Dst.legal (.invalid 5) = false ∧
    Src.legal (.invalid 32776) = false ∧
    regIndex (.reg 7) = .ok 7 ∧
    resolve regsState (.reg 2) = .ok 32768 :=
  ⟨by decide, by decide, by decide, rfl, rfl⟩
theorem witness_RmemCopiesAMemoryWord :
    MissingMet (startAt 32767 [15]) 15 2 ∧
    Dst.legal (.invalid 4) = false ∧
    Src.legal (.invalid 32776) = false ∧
    regIndex (.reg 7) = .ok 7 ∧
    resolve regsState (.reg 1) = .ok 32767 ∧
    (32767 : Word).toNat ≤ 32767 ∧
    resolve regsState (.reg 2) = .ok 32768 ∧
    32767 < (32768 : Word).toNat :=
  ⟨by decide, by decide, by decide, rfl, rfl, by decide, rfl, by decide⟩
theorem witness_WmemStoresOneWord :
    MissingMet (startAt 32767 [16]) 16 2 ∧
    Src.legal (.invalid 32776) = false ∧
    regsState.mem.wf = true ∧
    resolve regsState (.reg 1) = .ok 32767 ∧
    resolve regsState (.lit 5) = .ok 5 ∧
    (32767 : Word).toNat ≤ 32767 ∧
    resolve regsState (.reg 2) = .ok 32768 ∧
    32767 < (32768 : Word).toNat :=
  ⟨by decide, by decide, by decide, rfl, rfl, by decide, rfl, by decide⟩
theorem witness_OutEmitsTheLowByte :
    MissingMet (startAt 32767 [19]) 19 1 ∧
    Src.legal (.invalid 32776) = false ∧
    resolve regsState (.reg 2) = .ok 32768 :=
  ⟨by decide, by decide, rfl⟩

theorem witness_InAndIllegalRaiseUnknownOpcode : 22 ≤ (22 : Word).toNat ∧ 22 ≤ (65535 : Word).toNat := by decide
theorem witness_RmemAfterWmemReadsTheWord :
    regsState.mem.wf = true ∧ resolve regsState (.reg 1) = .ok 32767 ∧ resolve regsState (.reg 2) = .ok 32768 ∧
    (32767 : Word).toNat ≤ 32767 ∧ resolve regsState (.lit 32767) = .ok 32767 ∧ regIndex (.reg 7) = .ok 7 :=
  ⟨by decide, rfl, rfl, by decide, rfl, rfl⟩
theorem witness_FetchSeesAnEarlierWmem :
    regsState.mem.wf = true ∧ resolve regsState (.lit 3) = .ok 3 ∧ resolve regsState (.lit 0) = .ok 0 ∧
    (3 : Word).toNat ≤ 32767 ∧ (3 : Word).toNat < (4 : Word).toNat ∧
    resolve regsState (.lit 4) = .ok 4 ∧ (0 : Word).toNat + 4 ≤ (4 : Word).toNat :=
  ⟨by decide, rfl, rfl, by decide, by decide, rfl, by decide⟩
theorem witness_LiteralsStayLiteralsButForRmemAndPop :
    (∀ r : Reg, State.reset.regs[r].toNat ≤ 32767) ∧
    (∃ t, exec (.not (.reg 0) (.lit 0)) State.reset = .next t) ∧
    (∀ a b, Instr.not (.reg 0) (.lit 0) ≠ .rmem a b) ∧ ∀ a, Instr.not (.reg 0) (.lit 0) ≠ .pop a :=
  ⟨by decide, ⟨_, rfl⟩, nofun, nofun⟩
theorem witness_OnlyTheDestinationRegisterChanges :
    ∃ t, exec (.set (.reg 7) (.lit 4)) State.reset = .next t ∧ t.regs[(7 : Reg)] ≠ State.reset.regs[(7 : Reg)] :=
  ⟨_, rfl, by decide⟩
/-- Both bytes of the last word. -/
theorem witness_OnlyWmemChangesMemory :
    ∃ t, exec (.wmem (.reg 1) (.reg 1)) regsState = .next t ∧ readByte t.mem 65534 ≠ readByte regsState.mem 65534 ∧
      readByte t.mem 65535 ≠ readByte regsState.mem 65535 :=
  ⟨_, rfl, by decide, by decide⟩
theorem witness_OnlyFourInstructionsReachTheStack :
    (∃ t, exec (.push (.reg 2)) regsState = .next t ∧ t.stack ≠ regsState.stack) ∧
    (∃ t, exec (.call (.lit 5)) regsState = .next t ∧ t.stack ≠ regsState.stack) ∧
    (∃ t, exec (.pop (.reg 0)) (withStack none [9] regsState) = .next t ∧
      t.stack ≠ (withStack none [9] regsState).stack) ∧
    (∃ t, exec .ret (withStack none [9] regsState) = .next t ∧ t.stack ≠ (withStack none [9] regsState).stack) :=
  ⟨⟨_, rfl, by decide⟩, ⟨_, rfl, by decide⟩, ⟨_, rfl, by decide⟩, ⟨_, rfl, by decide⟩⟩
theorem witness_OutputIsAppendOnly :
    ∃ t, exec (.out (.lit 321)) State.reset = .next t ∧ t.output ≠ State.reset.output := ⟨_, rfl, by decide⟩
/-- A step that goes on, one that halts, one that faults. -/
theorem witness_RunStateMovesByHaltOrFaultOnly :
    (∃ t, step (start [21]) = .next t ∧ t.runState = .running) ∧
    (∃ t, step (start [0]) = .next t ∧ t.runState = .halted) ∧
    ∃ t, step (start [20]) = .next t ∧ t.runState = .faulted := ⟨⟨_, rfl, rfl⟩, ⟨_, rfl, rfl⟩, ⟨_, rfl, rfl⟩⟩
/-- A fault without an opcode, and one with it, at the two addresses where the cases meet. -/
theorem witness_FaultEntryChangesNothingElse :
    (∃ t, step (startAt 32768 []) = .next t ∧ t.runState = .faulted) ∧
    ∃ t, step (startAt 32767 [20]) = .next t ∧ t.runState = .faulted ∧ (startAt 32767 [20]).pc.toNat ≤ 32767 :=
  ⟨⟨_, rfl, rfl⟩, ⟨_, rfl, rfl, by decide⟩⟩
theorem witness_FaultReportIsARowOfTheTable :
    ∃ t, step (start [11, 32768, 5, 0]) = .next t ∧ t.runState = .faulted := ⟨_, rfl, rfl⟩
theorem inv_of_running {s : State} (hm : s.mem.wf = true) (hc : s.config = Config.reference)
    (hr : s.runState = .running) (hf : s.fault = none) : Inv s where
  memWf := hm
  configWf := by simp [hc, Config.reference, Config.wf]
  stackFits := by simp [hc, Config.reference]
  faultIff := by simp [hr, hf]
  faultPc := by simp [hf]
  faultRow := by simp [hf]
theorem witness_StepKeepsTheInvariant :
    Inv (start [16, 1, 5]) ∧ (∃ t, step (start [16, 1, 5]) = .next t) ∧
    Inv (startAt 32768 []) ∧ ∃ t, step (startAt 32768 []) = .next t ∧ t.runState = .faulted :=
  ⟨inv_of_running (by decide) rfl rfl rfl, ⟨_, rfl⟩, inv_of_running (by decide) rfl rfl rfl, ⟨_, rfl, rfl⟩⟩
theorem witness_BootHasTheInvariant : Config.reference.wf ∧ (policy .padZero).wf := by decide
theorem witness_OutputIsNeverReadBack :
    ∃ t, step { start [19, 65] with output := [1] } = .next t := ⟨_, rfl⟩
theorem witness_EntriesBelowTheTopAreNeverRead :
    (withStack none [5] (start [3, 32768])).config.stackCapacity = none ∧
    ∃ t, step (withStack none [5] (start [3, 32768])) = .next t ∧ t.runState ≠ .faulted :=
  ⟨rfl, ⟨_, rfl, by decide⟩⟩
/-- A step whose next state is faulted, and one whose is not. -/
theorem witness_FaultInfoIsNeverRead :
    (∃ t, step (start [20]) = .next t ∧ t.runState = .faulted) ∧
    ∃ t, step (start [21]) = .next t ∧ t.runState ≠ .faulted := ⟨⟨_, rfl, rfl⟩, ⟨_, rfl, by decide⟩⟩
theorem witness_ExitStatusTellsHaltFromFault :
    (setRunState .halted State.reset).runState = .halted ∧ (boot (policy .fault) [1]).runState = .faulted ∧
    Inv State.reset := ⟨rfl, by decide, inv_of_running (by decide) rfl rfl rfl⟩

end Sys2Proof.Tests
end

namespace Sys2Proof.Machine

/-! ### What an instruction that completes changes, field by field -/

section Frames

variable {s t : State} {i : Instr}

theorem Completes.config_eq (h : Completes s i t) : t.config = s.config := by
  cases h with
  | jt | jf => split <;> rfl
  | _ => rfl

theorem Completes.fault_eq (h : Completes s i t) : t.fault = s.fault := by
  cases h with
  | jt | jf => split <;> rfl
  | _ => rfl

theorem Completes.runState_of_halt (h : Completes s .halt t) : t.runState = .halted := by
  cases h
  rfl

theorem Completes.runState_eq (h : Completes s i t) (hi : i ≠ .halt) : t.runState = s.runState := by
  cases h with
  | halt => exact absurd rfl hi
  | jt | jf => split <;> rfl
  | _ => rfl

/-- `10_state.md` R23: an instruction without a write-position operand leaves the registers alone. -/
theorem Completes.regs_eq (h : Completes s i t) (hi : destOf i = none) : t.regs = s.regs := by
  cases h with
  | jt | jf => split <;> rfl
  | halt | noop | push | wmem | jmp | call | ret | out => rfl
  | _ => cases hi

/-- An instruction that completes with a write-position operand writes the one register it names. -/
theorem Completes.regs_eq_set {d : Dst} (h : Completes s i t) (hi : destOf i = some d) :
    ∃ r v, d = .reg r ∧ t.regs = s.regs.set r v := by
  cases h with
  | set ha | pop ha | eq ha | gt ha | add ha | mult ha | and ha | or ha | mod ha | not ha | rmem ha =>
    cases hi
    exact ⟨_, _, regIndex_eq_ok.mp ha, rfl⟩
  | _ => cases hi

end Frames

/-- Settles O45: a fault entry keeps the registers, and an instruction that completes writes only its destination. -/
theorem onlyTheDestinationRegisterChanges : Obligations.OnlyTheDestinationRegisterChanges := by
  intro i s t r h hne
  rcases exec_cases h with hc | ⟨k, -, rfl⟩
  · cases hd : destOf i with
    | none => exact absurd (by rw [hc.regs_eq hd]) hne
    | some d =>
      obtain ⟨r', v, rfl, hset⟩ := hc.regs_eq_set hd
      have hr : r' = r := by
        by_contra hn
        exact hne (by simp [hset, Vector.getElem_set_ne, Fin.val_ne_of_ne hn])
      have hi : i ≠ .halt := fun e => by simp [e, destOf] at hd
      exact ⟨by rw [hr], hc.runState_eq hi, hc.fault_eq⟩
  · exact absurd rfl hne

/-- Settles O47: of the effects of the instructions, four replace the stack, and a fault entry keeps it. -/
theorem onlyFourInstructionsReachTheStack : Obligations.OnlyFourInstructionsReachTheStack := by
  intro i s t h hne
  rcases exec_cases h with hc | ⟨k, -, rfl⟩
  · cases hc with
    | push ha => exact .inl (.inl ⟨_, rfl, _, ha, rfl⟩)
    | call => exact .inl (.inr ⟨_, rfl, rfl⟩)
    | pop _ top => exact .inr ⟨.inl ⟨_, rfl⟩, _, top⟩
    | ret top => exact .inr ⟨.inr rfl, _, top⟩
    | jt | jf => exact absurd (by split <;> rfl) hne
    | _ => exact absurd rfl hne
  · exact absurd rfl hne

/-- Settles O48: of the effects of the instructions, OUT's alone emits, and a fault entry keeps OUTPUT. -/
theorem outputIsAppendOnly : Obligations.OutputIsAppendOnly := by
  refine ⟨rfl, fun i s t h => ?_⟩
  rcases exec_cases h with hc | ⟨k, -, rfl⟩
  · cases hc with
    | out ha => exact .inr ⟨_, _, rfl, ha, rfl⟩
    | jt | jf => exact .inl (by split <;> rfl)
    | _ => exact .inl rfl
  · exact .inl rfl

/-- Settles O49: a step is a fetch fault, the decoded instruction's fault, or its completion, which keeps RUN_STATE
unless the instruction is HALT, whose opcode word is 0. -/
theorem runStateMovesByHaltOrFaultOnly : Obligations.RunStateMovesByHaltOrFaultOnly := by
  intro s t h
  obtain ⟨hr, ⟨-, rfl⟩ | ⟨-, -, rfl⟩ | ⟨hpc, i, -, -, hop, -, hx⟩⟩ := step_cases h
  · exact ⟨hr, rfl, .inr (.inr ⟨rfl, _, _, rfl⟩)⟩
  · exact ⟨hr, rfl, .inr (.inr ⟨rfl, _, _, rfl⟩)⟩
  · rcases exec_cases hx with hc | ⟨k, -, rfl⟩
    · refine ⟨hr, hc.config_eq, ?_⟩
      by_cases hi : i = .halt
      · subst hi
        exact .inr (.inl ⟨hc.runState_of_halt, hc.fault_eq, Nat.le_of_lt_succ hpc, hop.symm⟩)
      · exact .inl ⟨(hc.runState_eq hi).trans hr, hc.fault_eq⟩
    · exact ⟨hr, rfl, .inr (.inr ⟨rfl, _, _, rfl⟩)⟩

theorem readWord_nil (a : Nat) : readWord [] a = 0 := by
  simp [readWord, readByte, unlistedByte]

/-- Settles O1: each field of the reset state is its constructed value, and Memory without cells reads 0. -/
theorem resetLeavesTheConstructedValues : Obligations.ResetLeavesTheConstructedValues :=
  ⟨fun r => Vector.getElem_replicate r.isLt, fun a _ => readWord_nil a, rfl, rfl, rfl, rfl⟩

/-! ### Simulation

For the three noninterference statements: a relation between states that every update an instruction makes keeps is kept
by every step. Each statement then chooses its relation. -/

/-- How an effect `r'` follows an effect `r`: when `r` completes, `r'` completes in a related value; when `r` faults,
`r'` faults with the same kind, unless that kind is one of `lost`. -/
def Follows {α β : Type} (lost : FaultKind → Prop) (R : α → β → Prop) :
    Except FaultKind α → Except FaultKind β → Prop
  | .ok x, r' => ∃ y, r' = .ok y ∧ R x y
  | .error k, r' => lost k ∨ r' = .error k

namespace Follows

variable {α β γ δ : Type} {lost : FaultKind → Prop} {R : α → β → Prop} {Q : γ → δ → Prop}

theorem ok {x : α} {y : β} (h : R x y) : Follows lost R (.ok x) (.ok y) := ⟨y, rfl, h⟩

theorem error (k : FaultKind) : Follows lost R (.error k) (.error k) := .inr rfl

/-- An operand decode that both effects begin with. -/
theorem bind (x : Except FaultKind γ) {f : γ → Except FaultKind α} {g : γ → Except FaultKind β}
    (h : ∀ v, Follows lost R (f v) (g v)) : Follows lost R (x >>= f) (x >>= g) := by
  cases x with
  | error k => exact error k
  | ok v => exact h v

theorem map {r : Except FaultKind α} {r' : Except FaultKind β} {f : α → γ} {g : β → δ}
    (h : Follows lost R r r') (hfg : ∀ x y, R x y → Q (f x) (g y)) : Follows lost Q (r.map f) (r'.map g) := by
  cases r with
  | error k => exact h.imp id fun e => by rw [e]; rfl
  | ok x =>
    obtain ⟨y, rfl, hxy⟩ := h
    exact ok (hfg x y hxy)

end Follows

/-- `R` relates states that no instruction tells apart: they hold the same registers, pc, Memory and RUN_STATE, every
update keeps `R`, and Push and Pop from the one follow those from the other. -/
structure Simulation (lost : FaultKind → Prop) (R : State → State → Prop) : Prop where
  regs {s s'} : R s s' → s'.regs = s.regs
  pc {s s'} : R s s' → s'.pc = s.pc
  mem {s s'} : R s s' → s'.mem = s.mem
  runState {s s'} : R s s' → s'.runState = s.runState
  setPc {s s'} (target : Word) : R s s' → R (setPc target s) (setPc target s')
  writeReg {s s'} (r : Reg) (v : Word) : R s s' → R (writeReg r v s) (writeReg r v s')
  setMem {s s'} (m : Memory) : R s s' → R (setMem m s) (setMem m s')
  emit {s s'} (b : Byte) : R s s' → R (emit b s) (emit b s')
  halt {s s'} : R s s' → R (setRunState .halted s) (setRunState .halted s')
  push {s s'} (v : Word) : R s s' → Follows lost R (pushWord v s) (pushWord v s')
  pop {s s'} : R s s' → Follows lost (fun x y => y.1 = x.1 ∧ R x.2 y.2) (popWord s) (popWord s')

section Simulates

variable {lost : FaultKind → Prop} {R : State → State → Prop} {s s' : State}

/-! The five formats, from states with the same registers. -/

theorem withR_follows (hregs : s'.regs = s.regs) (a : Src) {f g : Word → Except FaultKind State}
    (h : ∀ va, Follows lost R (f va) (g va)) : Follows lost R (withR s a f) (withR s' a g) := by
  unfold withR
  rw [resolve_congr hregs]
  exact .bind _ h

theorem withW_follows (a : Dst) {f g : Reg → Except FaultKind State}
    (h : ∀ r, Follows lost R (f r) (g r)) : Follows lost R (withW a f) (withW a g) :=
  .bind _ h

theorem withWR_follows (hregs : s'.regs = s.regs) (a : Dst) (b : Src) {f g : Reg → Word → Except FaultKind State}
    (h : ∀ r vb, Follows lost R (f r vb) (g r vb)) : Follows lost R (withWR s a b f) (withWR s' a b g) := by
  unfold withWR
  rw [resolve_congr hregs]
  exact .bind _ fun r => .bind _ (h r)

theorem withRR_follows (hregs : s'.regs = s.regs) (a b : Src) {f g : Word → Word → Except FaultKind State}
    (h : ∀ va vb, Follows lost R (f va vb) (g va vb)) : Follows lost R (withRR s a b f) (withRR s' a b g) := by
  unfold withRR
  rw [resolve_congr hregs, resolve_congr hregs]
  exact .bind _ fun va => .bind _ (h va)

theorem withWRR_follows (hregs : s'.regs = s.regs) (a : Dst) (b c : Src)
    {f g : Reg → Word → Word → Except FaultKind State} (h : ∀ r vb vc, Follows lost R (f r vb vc) (g r vb vc)) :
    Follows lost R (withWRR s a b c f) (withWRR s' a b c g) := by
  unfold withWRR
  rw [resolve_congr hregs, resolve_congr hregs]
  exact .bind _ fun r => .bind _ fun vb => .bind _ (h r vb)

namespace Simulation

theorem advance (hR : Simulation lost R) (n : Nat) (h : R s s') : R (advance n s) (advance n s') := by
  unfold Machine.advance
  rw [hR.pc h]
  exact hR.setPc _ h

/-- A memory read is the same in both states. -/
theorem memRead_follows (hR : Simulation lost R) (addr : Word) (h : R s s') :
    Follows lost Eq (memRead s addr) (memRead s' addr) := by
  unfold memRead
  rw [hR.mem h]
  split
  · exact .error _
  · exact .ok rfl

theorem memWrite_follows (hR : Simulation lost R) (addr v : Word) (h : R s s') :
    Follows lost R (memWrite addr v s) (memWrite addr v s') := by
  unfold memWrite
  rw [hR.mem h]
  split
  · exact .error _
  · exact .ok (hR.setMem _ h)

/-- The form the instructions with three operands share: a register is written and pc advances. -/
theorem withWRR_write (hR : Simulation lost R) (h : R s s') (a : Dst) (b c : Src) (f : Word → Word → Word) :
    Follows lost R
      (withWRR s a b c fun r vb vc => .ok (Machine.advance 4 (Machine.writeReg r (f vb vc) s)))
      (withWRR s' a b c fun r vb vc => .ok (Machine.advance 4 (Machine.writeReg r (f vb vc) s'))) :=
  withWRR_follows (hR.regs h) a b c fun r _ _ => .ok (hR.advance 4 (hR.writeReg r _ h))

/-- From related states an instruction commits effects of which the one follows the other. -/
theorem exec_follows (hR : Simulation lost R) (h : R s s') (i : Instr) :
    ∃ r r', exec i s = commit i.opcode s r ∧ exec i s' = commit i.opcode s' r' ∧ Follows lost R r r' := by
  have hregs := hR.regs h
  cases i with
  | halt => exact ⟨_, _, rfl, rfl, .ok (hR.halt h)⟩
  | noop => exact ⟨_, _, rfl, rfl, .ok (hR.advance 1 h)⟩
  | inp | illegal => exact ⟨_, _, rfl, rfl, .error _⟩
  | eq a b c => exact ⟨_, _, rfl, rfl, hR.withWRR_write h a b c aluEq⟩
  | gt a b c => exact ⟨_, _, rfl, rfl, hR.withWRR_write h a b c aluGt⟩
  | add a b c => exact ⟨_, _, rfl, rfl, hR.withWRR_write h a b c aluAdd⟩
  | mult a b c => exact ⟨_, _, rfl, rfl, hR.withWRR_write h a b c aluMult⟩
  | and a b c => exact ⟨_, _, rfl, rfl, hR.withWRR_write h a b c aluAnd⟩
  | or a b c => exact ⟨_, _, rfl, rfl, hR.withWRR_write h a b c aluOr⟩
  | mod a b c =>
    refine ⟨_, _, rfl, rfl, withWRR_follows hregs a b c fun r vb vc => ?_⟩
    cases aluMod vb vc with
    | error k => exact .error k
    | ok v => exact .ok (hR.advance 4 (hR.writeReg r v h))
  | set a b =>
    exact ⟨_, _, rfl, rfl, withWR_follows hregs a b fun r vb => .ok (hR.advance 3 (hR.writeReg r vb h))⟩
  | not a b =>
    exact ⟨_, _, rfl, rfl, withWR_follows hregs a b fun r vb => .ok (hR.advance 3 (hR.writeReg r (aluNot vb) h))⟩
  | rmem a b =>
    refine ⟨_, _, rfl, rfl, withWR_follows hregs a b fun r addr => (hR.memRead_follows addr h).map ?_⟩
    rintro v _ rfl
    exact hR.advance 3 (hR.writeReg r v h)
  | wmem a b =>
    exact ⟨_, _, rfl, rfl, withRR_follows hregs a b fun addr v =>
      (hR.memWrite_follows addr v h).map fun _ _ => hR.advance 3⟩
  | jmp a => exact ⟨_, _, rfl, rfl, withR_follows hregs a fun va => .ok (hR.setPc va h)⟩
  | jt a b =>
    refine ⟨_, _, rfl, rfl, withRR_follows hregs a b fun va vb => .ok ?_⟩
    split
    · exact hR.setPc vb h
    · exact hR.advance 3 h
  | jf a b =>
    refine ⟨_, _, rfl, rfl, withRR_follows hregs a b fun va vb => .ok ?_⟩
    split
    · exact hR.advance 3 h
    · exact hR.setPc vb h
  | push a =>
    exact ⟨_, _, rfl, rfl, withR_follows hregs a fun va => (hR.push va h).map fun _ _ => hR.advance 2⟩
  | call a =>
    refine ⟨_, _, rfl, rfl, withR_follows hregs a fun va => ?_⟩
    rw [hR.pc h]
    exact (hR.push _ h).map fun _ _ => hR.setPc va
  | pop a =>
    refine ⟨_, _, rfl, rfl, withW_follows a fun r => (hR.pop h).map ?_⟩
    rintro ⟨v, u⟩ ⟨_, u'⟩ ⟨rfl, hu⟩
    exact hR.advance 2 (hR.writeReg r _ hu)
  | ret =>
    refine ⟨_, _, rfl, rfl, (hR.pop h).map ?_⟩
    rintro ⟨v, u⟩ ⟨_, u'⟩ ⟨rfl, hu⟩
    exact hR.setPc _ hu
  | out a => exact ⟨_, _, rfl, rfl, withR_follows hregs a fun va => .ok (hR.advance 2 (hR.emit _ h))⟩

/-- Executing an instruction in `s` is matched from a related `s'`: into related states, or by entering the same fault,
which may be missing only when its kind is one of `lost`. -/
theorem exec_next_follows (hR : Simulation lost R) (h : R s s') {i : Instr} {t : State} (hs : exec i s = .next t) :
    (∃ t', exec i s' = .next t' ∧ R t t') ∨
    ∃ k op, t = takeFault k op s ∧ (lost k ∨ exec i s' = .next (takeFault k op s')) := by
  obtain ⟨r, r', hx, hx', hf⟩ := hR.exec_follows h i
  rw [hx] at hs
  rw [hx']
  rcases commit_eq_next.mp hs with rfl | ⟨k, rfl, rfl⟩
  · obtain ⟨t', rfl, ht⟩ := hf
    exact .inl ⟨t', rfl, ht⟩
  · exact .inr ⟨k, _, rfl, hf.imp id fun e => by rw [e]; rfl⟩

/-- The same for a step: its fetch reads the same words in both states. -/
theorem step_follows (hR : Simulation lost R) (h : R s s') {t : State} (hs : step s = .next t) :
    (∃ t', step s' = .next t' ∧ R t t') ∨
    ∃ k op, t = takeFault k op s ∧ (lost k ∨ step s' = .next (takeFault k op s')) := by
  have hr : s.runState = .running := (step_cases hs).1
  have hw : fetchWindow s' = fetchWindow s := by rw [fetchWindow, fetchWindow, hR.mem h, hR.pc h]
  rw [step_running hr] at hs
  rw [step_running ((hR.runState h).trans hr)]
  rcases hd : decode (fetchWindow s) with (_ | op) | ⟨i, rest⟩
  · simp only [cycle, hd, Host.Outcome.next.injEq] at hs
    exact .inr ⟨_, _, hs.symm, .inr (by simp only [cycle, hw, hd])⟩
  · simp only [cycle, hd, Host.Outcome.next.injEq] at hs
    exact .inr ⟨_, _, hs.symm, .inr (by simp only [cycle, hw, hd])⟩
  · rw [cycle_decoded hd] at hs
    rw [cycle_decoded (hw.symm ▸ hd)]
    exact hR.exec_next_follows h hs

end Simulation

theorem stackFull_congr (hstack : s'.stack = s.stack) (hconfig : s'.config = s.config) :
    stackFull s' = stackFull s := by
  unfold stackFull
  rw [hstack, hconfig]

/-- Push in two states with the same stack and configuration. -/
theorem pushWord_follows {v : Word} (hstack : s'.stack = s.stack) (hconfig : s'.config = s.config)
    (hset : ∀ l, R (setStack l s) (setStack l s')) : Follows lost R (pushWord v s) (pushWord v s') := by
  unfold pushWord
  rw [stackFull_congr hstack hconfig, hstack]
  split
  · exact .error _
  · exact .ok (hset _)

/-- Pop in two states with the same stack. -/
theorem popWord_follows (hstack : s'.stack = s.stack) (hset : ∀ l, R (setStack l s) (setStack l s')) :
    Follows lost (fun x y => y.1 = x.1 ∧ R x.2 y.2) (popWord s) (popWord s') := by
  unfold popWord
  rw [hstack]
  split
  · exact .error _
  · exact .ok ⟨rfl, hset _⟩

end Simulates

/-! ### What was emitted before -/

/-- `s'` is `s` with the bytes `o` emitted before its OUTPUT. -/
def EmittedBefore (o : List Byte) (s s' : State) : Prop := s' = { s with output := o ++ s.output }

theorem simulation_emittedBefore (o : List Byte) : Simulation (fun _ => False) (EmittedBefore o) where
  regs := by rintro s _ rfl; rfl
  pc := by rintro s _ rfl; rfl
  mem := by rintro s _ rfl; rfl
  runState := by rintro s _ rfl; rfl
  setPc _ := by rintro rfl; rfl
  writeReg _ _ := by rintro rfl; rfl
  setMem _ := by rintro rfl; rfl
  emit _ := by rintro rfl; simp [EmittedBefore, emit]
  halt := by rintro s _ rfl; rfl
  push _ := by rintro rfl; exact pushWord_follows rfl rfl fun _ => rfl
  pop := by rintro s _ rfl; exact popWord_follows rfl fun _ => rfl

/-- Settles O55: emitting more before OUTPUT is a simulation that loses no fault, and a fault entry keeps OUTPUT. -/
theorem outputIsNeverReadBack : Obligations.OutputIsNeverReadBack := by
  intro s t o hs
  rcases (simulation_emittedBefore o).step_follows rfl hs with ⟨_, ht, rfl⟩ | ⟨k, op, rfl, hlost | ht⟩
  · exact ht
  · exact hlost.elim
  · exact ht

/-! ### Entries under the stack -/

/-- On an unbounded stack, `s'` is `s` with the entries `base` under its stack. -/
def StackedUnder (base : List Word) (s s' : State) : Prop :=
  s.config.stackCapacity = none ∧ s' = { s with stack := base ++ s.stack }

theorem pushWord_of_unbounded {s : State} {v : Word} (h : s.config.stackCapacity = none) :
    pushWord v s = .ok (setStack (s.stack ++ [v]) s) :=
  pushWord_eq_ok.mpr ⟨by simp [stackFull, h], rfl⟩

/-- More entries under the stack can only undo an underflow. -/
theorem simulation_stackedUnder (base : List Word) : Simulation (· = .stackUnderflow) (StackedUnder base) where
  regs := by rintro s _ ⟨-, rfl⟩; rfl
  pc := by rintro s _ ⟨-, rfl⟩; rfl
  mem := by rintro s _ ⟨-, rfl⟩; rfl
  runState := by rintro s _ ⟨-, rfl⟩; rfl
  setPc _ := by rintro ⟨hc, rfl⟩; exact ⟨hc, rfl⟩
  writeReg _ _ := by rintro ⟨hc, rfl⟩; exact ⟨hc, rfl⟩
  setMem _ := by rintro ⟨hc, rfl⟩; exact ⟨hc, rfl⟩
  emit _ := by rintro ⟨hc, rfl⟩; exact ⟨hc, rfl⟩
  halt := by rintro s _ ⟨hc, rfl⟩; exact ⟨hc, rfl⟩
  push v := by
    rintro ⟨hc, rfl⟩
    simp only [pushWord_of_unbounded, hc]
    exact .ok ⟨hc, by simp [setStack]⟩
  pop := by
    rintro s _ ⟨hc, rfl⟩
    rcases List.eq_nil_or_concat s.stack with hs | ⟨l, v, hs⟩
    · rw [popWord_eq_error.mpr ⟨hs, rfl⟩]
      exact .inl rfl
    · rw [List.concat_eq_append] at hs
      have top : base ++ s.stack = base ++ l ++ [v] := by rw [hs, List.append_assoc]
      rw [popWord_eq_ok.mpr ⟨l, hs, rfl⟩, popWord_eq_ok.mpr ⟨base ++ l, top, rfl⟩]
      exact .ok ⟨rfl, hc, rfl⟩

/-- Settles O56: adding entries under the stack is a simulation, and a step that completes takes its matching case. -/
theorem entriesBelowTheTopAreNeverRead : Obligations.EntriesBelowTheTopAreNeverRead := by
  intro s t base hc hs hnf
  rcases (simulation_stackedUnder base).step_follows ⟨hc, rfl⟩ hs with ⟨_, ht, -, rfl⟩ | ⟨k, op, rfl, -⟩
  · exact ht
  · exact absurd rfl hnf

/-! ### FAULT_INFO before a fault -/

/-- Outside Faulted, `s'` is `s` with FAULT_INFO `f`. -/
def FaultInfoReplaced (f : Option FaultInfo) (s s' : State) : Prop :=
  s.runState ≠ .faulted ∧ s' = { s with fault := f }

theorem simulation_faultInfoReplaced (f : Option FaultInfo) :
    Simulation (fun _ => False) (FaultInfoReplaced f) where
  regs := by rintro s _ ⟨-, rfl⟩; rfl
  pc := by rintro s _ ⟨-, rfl⟩; rfl
  mem := by rintro s _ ⟨-, rfl⟩; rfl
  runState := by rintro s _ ⟨-, rfl⟩; rfl
  setPc _ := by rintro ⟨hn, rfl⟩; exact ⟨hn, rfl⟩
  writeReg _ _ := by rintro ⟨hn, rfl⟩; exact ⟨hn, rfl⟩
  setMem _ := by rintro ⟨hn, rfl⟩; exact ⟨hn, rfl⟩
  emit _ := by rintro ⟨hn, rfl⟩; exact ⟨hn, rfl⟩
  halt := by rintro s _ ⟨-, rfl⟩; exact ⟨by simp, rfl⟩
  push _ := by rintro ⟨hn, rfl⟩; exact pushWord_follows rfl rfl fun _ => ⟨hn, rfl⟩
  pop := by rintro s _ ⟨hn, rfl⟩; exact popWord_follows rfl fun _ => ⟨hn, rfl⟩

/-- Settles O57: replacing FAULT_INFO is a simulation outside Faulted, and a fault entry writes it whatever it was. -/
theorem faultInfoIsNeverRead : Obligations.FaultInfoIsNeverRead := by
  intro s t f hs
  have hn : s.runState ≠ .faulted := by simp [(step_cases hs).1]
  rcases (simulation_faultInfoReplaced f).step_follows ⟨hn, rfl⟩ hs with ⟨_, ht, hnt, rfl⟩ | ⟨k, op, rfl, hlost | ht⟩
  · rw [if_neg hnt]
    exact ht
  · exact hlost.elim
  · exact ht

end Sys2Proof.Machine

namespace Sys2Proof.Machine

/-! ### The invariant -/

section Invariant

variable {s t : State} {i : Instr} {k : FaultKind}

/-- `20_memory.md` R52: an instruction that completes leaves Memory alone, or is WMEM and stores one word. -/
theorem Completes.mem_cases (h : Completes s i t) :
    t.mem = s.mem ∨
    ∃ a b addr v, i = .wmem a b ∧ resolve s a = .ok addr ∧ addr.toNat < memWords ∧
      t.mem = writeWord s.mem addr.toNat v := by
  cases h with
  | wmem ha _ inside => exact .inr ⟨_, _, _, _, rfl, ha, inside, rfl⟩
  | jt | jf => exact .inl (by split <;> rfl)
  | _ => exact .inl rfl

theorem Completes.mem_wf (h : Completes s i t) (hm : s.mem.wf = true) : t.mem.wf = true := by
  rcases h.mem_cases with he | ⟨_, _, _, _, -, -, inside, he⟩ <;> rw [he]
  · exact hm
  · exact wf_writeWord hm inside

/-- `10_state.md` R38: an instruction that completes adds at most one entry to the stack, and only if there is
room. -/
theorem Completes.stack_length (h : Completes s i t) :
    t.stack.length ≤ s.stack.length ∨ stackFull s = false ∧ t.stack.length = s.stack.length + 1 := by
  cases h with
  | push _ room | call _ room => exact .inr ⟨room, List.length_append⟩
  | pop _ top | ret top => exact .inl (by simp [top])
  | jt | jf => exact .inl (by split <;> exact Nat.le_refl _)
  | _ => exact .inl (Nat.le_refl _)

theorem Completes.stack_fits (h : Completes s i t) {n : Nat} (hn : s.config.stackCapacity = some n)
    (hs : s.stack.length ≤ n) : t.stack.length ≤ n := by
  rcases h.stack_length with hle | ⟨room, he⟩
  · exact hle.trans hs
  · have := stackFull_eq_false.mp room n hn
    omega

theorem Completes.not_faulted (h : Completes s i t) (hr : s.runState = .running) : t.runState ≠ .faulted := by
  by_cases hi : i = .halt
  · subst hi
    simp [h.runState_of_halt]
  · simp [h.runState_eq hi, hr]

/-- An opcode whose own check reports a kind stands in that kind's row of `60_exceptions.md` R200. -/
theorem reportAllowed_of_ownCheck {op pc : Word} (hpc : pc.toNat < memWords) (h : ownCheck op k = true) :
    reportAllowed { kind := k, pc := pc, opcode := some op } = true := by
  cases k with
  | memoryOutOfRange =>
    have hcount : 0 < operandCount op := by
      rcases (by simpa [ownCheck] using h : op = 15 ∨ op = 16) with rfl | rfl <;> decide
    simp only [reportAllowed, Bool.and_eq_true, decide_eq_true_eq]
    exact ⟨hcount, Nat.le_of_lt_succ hpc⟩
  | stackUnderflow | divisionByZero | stackOverflow => exact h
  | invalidOperandCode | unknownOpcode | loadOverflow | loadOddLength => cases h

/-- Every fault an instruction enters is a row of `60_exceptions.md` R200. -/
theorem reportAllowed_of_faultsBy {pc : Word} (hpc : pc.toNat < memWords) (hw : i.wf = true) (h : FaultsBy i k) :
    reportAllowed { kind := k, pc := pc, opcode := some i.opcode } = true := by
  rcases h with ⟨rfl, rfl | ⟨op, rfl⟩⟩ | ⟨rfl, -, hcount⟩ | ⟨-, hown⟩
  · rfl
  · have hop : 22 ≤ op.toNat := by simpa [Instr.wf] using hw
    simp [reportAllowed, Instr.opcode, hop]
  · simpa [reportAllowed] using hcount
  · exact reportAllowed_of_ownCheck hpc hown

/-- A step completes one instruction, or enters a fault that is a row of `60_exceptions.md` R200. -/
theorem step_completes_or_faults (h : step s = .next t) :
    (∃ i, Completes s i t) ∨
    ∃ k op, reportAllowed { kind := k, pc := s.pc, opcode := op } = true ∧ t = takeFault k op s := by
  obtain ⟨-, ⟨hpc, rfl⟩ | ⟨hpc, hlong, rfl⟩ | ⟨hpc, i, -, -, -, hw, hx⟩⟩ := step_cases h
  · exact .inr ⟨.memoryOutOfRange, none, decide_eq_true hpc, rfl⟩
  · refine .inr ⟨_, _, ?_, rfl⟩
    simp only [reportAllowed, Bool.and_eq_true, decide_eq_true_eq]
    exact ⟨by omega, Nat.le_of_lt_succ hpc⟩
  · rcases exec_cases hx with hc | ⟨k, hk, rfl⟩
    · exact .inl ⟨i, hc⟩
    · exact .inr ⟨_, _, reportAllowed_of_faultsBy hpc hw hk, rfl⟩

theorem Inv.of_completes (hi : Inv s) (hr : s.runState = .running) (h : Completes s i t) : Inv t := by
  have hnone : t.fault = none := by
    rw [h.fault_eq, ← Option.not_isSome_iff_eq_none, ← hi.faultIff, hr]
    simp
  exact {
    memWf := h.mem_wf hi.memWf
    configWf := by rw [h.config_eq]; exact hi.configWf
    stackFits := fun n hn => by
      rw [h.config_eq] at hn
      exact h.stack_fits hn (hi.stackFits n hn)
    faultIff := by simp [h.not_faulted hr, hnone]
    faultPc := by simp [hnone]
    faultRow := by simp [hnone] }

theorem Inv.of_takeFault {op : Option Word} (hi : Inv s)
    (hrow : reportAllowed { kind := k, pc := s.pc, opcode := op } = true) : Inv (takeFault k op s) where
  memWf := hi.memWf
  configWf := hi.configWf
  stackFits := hi.stackFits
  faultIff := by simp
  faultPc := by rintro _ ⟨⟩; rfl
  faultRow := by rintro _ ⟨⟩; exact hrow

end Invariant

/-- Settles O52: completing keeps Memory canonical and the stack within its capacity and writes no FAULT_INFO; a fault
entry keeps all but RUN_STATE and FAULT_INFO, which it writes together with a row of the table of kinds. -/
theorem stepKeepsTheInvariant : Obligations.StepKeepsTheInvariant := by
  intro s t hi h
  rcases step_completes_or_faults h with ⟨i, hc⟩ | ⟨k, op, hrow, rfl⟩
  · exact hi.of_completes (step_cases h).1 hc
  · exact hi.of_takeFault hrow

/-- Settles O46: an instruction that changes a byte completes, so it is WMEM, and the byte is in the word it stores. -/
theorem onlyWmemChangesMemory : Obligations.OnlyWmemChangesMemory := by
  intro i s t n h hne
  rcases exec_cases h with hc | ⟨k, -, rfl⟩
  · rcases hc.mem_cases with he | ⟨a, b, addr, v, rfl, ha, inside, he⟩
    · exact absurd (by rw [he]) hne
    · refine ⟨a, b, addr, rfl, ha, Nat.le_of_lt_succ inside, ?_⟩
      by_contra hn
      obtain ⟨hlo, hhi⟩ := not_or.mp hn
      exact hne (by rw [he, readByte_writeWord_ne hlo hhi])
  · exact absurd rfl hne

/-! ### RMEM and WMEM inside Memory -/

section MemoryAccess

variable {s : State} {a b : Src} {addr v : Word}

theorem exec_wmem_eq (ha : resolve s a = .ok addr) (hb : resolve s b = .ok v) (inside : addr.toNat < memWords) :
    exec (.wmem a b) s = .next (advance 3 (setMem (writeWord s.mem addr.toNat v) s)) :=
  commit_eq_next.mpr <| .inl <| withRR_eq_ok.mpr
    ⟨addr, v, ha, hb, map_eq_ok.mpr ⟨_, memWrite_eq_ok.mpr ⟨inside, rfl⟩, rfl⟩⟩

theorem exec_rmem_eq {d : Dst} {r : Reg} (hd : regIndex d = .ok r) (ha : resolve s a = .ok addr)
    (inside : addr.toNat < memWords) :
    exec (.rmem d a) s = .next (advance 3 (writeReg r (readWord s.mem addr.toNat) s)) :=
  commit_eq_next.mpr <| .inl <| withWR_eq_ok.mpr
    ⟨r, addr, hd, ha, map_eq_ok.mpr ⟨_, memRead_eq_ok.mpr ⟨inside, rfl⟩, rfl⟩⟩

/-- A fetch of words that do not include the one written reads what it read before. -/
theorem fetchWords_writeWord {m : Memory} {n p w : Nat} (h : w < p ∨ p + n ≤ w) :
    fetchWords (writeWord m w v) n p = fetchWords m n p := by
  induction n generalizing p with
  | zero => rfl
  | succ n ih =>
    rw [fetchWords, fetchWords, readWord_writeWord_ne (by omega), ih (by omega)]

end MemoryAccess

/-- Settles O42: WMEM keeps the registers, so RMEM's operand resolves as before, and the word reads back as written. -/
theorem rmemAfterWmemReadsTheWord : Obligations.RmemAfterWmemReadsTheWord := by
  intro s a b addr' d r addr v hm ha hb hin ha' hd
  have inside : addr.toNat < memWords := Nat.lt_succ_of_le hin
  refine ⟨_, _, exec_wmem_eq ha hb inside,
    exec_rmem_eq hd ((resolve_congr (s := s) rfl).trans ha') inside, ?_⟩
  simp [readWord_writeWord_same hm inside]

/-- Settles O43: the fetch window starts with the word at pc, which reads as written, and holds no other word that
changed. -/
theorem fetchSeesAnEarlierWmem : Obligations.FetchSeesAnEarlierWmem := by
  intro s a b addr v hm ha hb hin
  have inside : addr.toNat < memWords := Nat.lt_succ_of_le hin
  refine ⟨_, exec_wmem_eq ha hb inside, ?_, fun p hp => fetchWords_writeWord hp⟩
  rw [head?_fetchWindow inside]
  simp [readWord_writeWord_same hm inside]

/-- `20_memory.md` R56, `40_machine_control.md` R110: the word 0 is HALT, so a step at an unwritten word halts. -/
theorem step_of_word_zero {s : State} (hr : s.runState = .running) (hpc : s.pc.toNat < memWords)
    (hzero : readWord s.mem s.pc.toNat = 0) : step s = .next (setRunState .halted s) := by
  obtain ⟨rest, hrest⟩ := List.head?_eq_some_iff.mp (head?_fetchWindow hpc)
  have hdec : decode (fetchWindow s) = .ok (.halt, rest) := by
    rw [hrest, hzero]
    rfl
  rw [step_running hr, cycle_decoded hdec]
  rfl

/-! ### The load -/

section Load

variable {c : Config} {image bytes : List Byte}

theorem applyPolicy_even {p : OddImagePolicy} (h : image.length % 2 = 0) : applyPolicy p image = .ok image :=
  if_pos h

theorem applyPolicy_fault (h : image.length % 2 = 1) : applyPolicy .fault image = .error .loadOddLength :=
  if_neg (by omega)

theorem applyPolicy_dropTrailing (h : image.length % 2 = 1) :
    applyPolicy .dropTrailing image = .ok image.dropLast :=
  if_neg (by omega)

theorem applyPolicy_padZero (h : image.length % 2 = 1) : applyPolicy .padZero image = .ok (image ++ [0]) :=
  if_neg (by omega)

/-- The load sees of an image only what the policy leaves of it. -/
theorem boot_congr {image' : List Byte}
    (h : applyPolicy c.oddImagePolicy image = applyPolicy c.oddImagePolicy image') : boot c image = boot c image' := by
  unfold boot imageWords
  rw [h]

theorem boot_of_policy_error {k : FaultKind} (h : applyPolicy c.oddImagePolicy image = .error k) :
    boot c image = takeFault k none (State.init c) := by
  simp [boot, imageWords, h, bind, Except.bind]

/-- `20_memory.md` R56: too many bytes after the policy. -/
theorem boot_of_overflow (h : applyPolicy c.oddImagePolicy image = .ok bytes) (hlong : memWords < bytes.length / 2) :
    boot c image = takeFault .loadOverflow none (State.init c) := by
  simp [boot, imageWords, h, bind, Except.bind, length_wordsOfBytes, hlong]

/-- `20_memory.md` R55: an even image that fits. -/
theorem boot_of_fits (heven : image.length % 2 = 0) (hfits : image.length ≤ 65536) :
    boot c image = setMem (storeWords (wordsOfBytes image) 0 []) (State.init c) := by
  have hw : ¬memWords < image.length / 2 := by simp only [memWords]; omega
  simp [boot, imageWords, applyPolicy_even heven, bind, Except.bind, length_wordsOfBytes, hw, State.init]

/-- `20_memory.md` R55: word `k` of an image has byte 2k+1 above byte 2k. -/
theorem getD_wordsOfBytes : ∀ (bs : List Byte) (k : Nat),
    (wordsOfBytes bs).getD k 0 = if h : 2 * k + 1 < bs.length then bs[2 * k + 1] ++ bs[2 * k] else 0
  | [], _ => rfl
  | [_], _ => by simp [wordsOfBytes]
  | _ :: _ :: _, 0 => by simp [wordsOfBytes]
  | _ :: _ :: rest, k + 1 => by
    simp only [wordsOfBytes, List.getD_cons_succ, getD_wordsOfBytes rest k, List.length_cons, List.getElem_cons_succ,
      Nat.mul_add, Nat.mul_one, Nat.add_right_comm _ 2 1, Nat.add_lt_add_iff_right]

/-- The word at `k` after the load of an even image that fits. -/
theorem readWord_boot (heven : image.length % 2 = 0) (hfits : image.length ≤ 65536) {k : Nat} (hk : k < memWords) :
    readWord (boot c image).mem k =
      if h : 2 * k + 1 < image.length then image[2 * k + 1] ++ image[2 * k] else 0 := by
  have hread := readWord_storeWords (ws := wordsOfBytes image) (a := 0) (k := k) (m := []) rfl (by omega)
  rw [Nat.zero_add, readWord_nil, getD_wordsOfBytes] at hread
  rw [boot_of_fits heven hfits]
  exact hread

end Load

/-- Settles O2: the load stores the image's words from address 0 on in a Memory that reads 0. -/
theorem loadPlacesLittleEndianPairs : Obligations.LoadPlacesLittleEndianPairs := by
  intro c image heven hfits
  refine ⟨fun k hk => readWord_boot heven hfits hk, ?_⟩
  rw [boot_of_fits heven hfits]
  rfl

/-- Settles O3: what the policy leaves is too long; or the image fits with a pair for every word; or the word 0 at
address 0 is HALT. -/
theorem oversizedImageIsRejected : Obligations.OversizedImageIsRejected := by
  refine ⟨fun c image hlong hcases => ?_, fun c image hlen => ?_, fun c =>
    ⟨rfl, step_of_word_zero (s := State.init c) rfl (by simp [State.init, memWords]) (readWord_nil 0)⟩⟩
  · change boot c image = takeFault .loadOverflow none (State.init c)
    rcases Nat.mod_two_eq_zero_or_one image.length with heven | hodd
    · exact boot_of_overflow (applyPolicy_even heven) (by simp only [memWords]; omega)
    · rcases hcases with heven | hpad | ⟨hdrop, hlong'⟩
      · omega
      · refine boot_of_overflow (by rw [hpad]; exact applyPolicy_padZero hodd) ?_
        simp only [memWords, List.length_append, List.length_singleton]
        omega
      · refine boot_of_overflow (by rw [hdrop]; exact applyPolicy_dropTrailing hodd) ?_
        simp only [memWords, List.length_dropLast]
        omega
  · refine ⟨?_, fun k hk => ?_⟩
    · rw [boot_of_fits (by omega) (by omega)]
      rfl
    · rw [readWord_boot (by omega) (by omega) hk, dif_pos (by omega)]

/-- Settles O4: Fault ends the load in the policy; the other policies leave the even image that the load then sees. -/
theorem oddImageFollowsThePolicy : Obligations.OddImageFollowsThePolicy := by
  intro c image hodd
  refine ⟨fun hp => ?_, fun hp => boot_congr ?_, fun hp => boot_congr ?_⟩
  · exact boot_of_policy_error (by rw [hp]; exact applyPolicy_fault hodd)
  · rw [hp, applyPolicy_dropTrailing hodd, applyPolicy_even (by rw [List.length_dropLast]; omega)]
  · rw [hp, applyPolicy_padZero hodd, applyPolicy_even (by rw [List.length_append, List.length_singleton]; omega)]

end Sys2Proof.Machine

namespace Sys2Proof

/-! ### Encoding and decoding undo each other -/

section Encoding

variable {i : Instr} {ws rest : List Word}

/-- `30_encoding.md` R80, R81: what Laws/PerInstr.lean says of each constructor. -/
theorem encodedLength : ∀ i, Laws.EncodedLength.Statement i
  | .halt => Laws.EncodedLength.halt
  | .set a b => Laws.EncodedLength.set a b
  | .push a => Laws.EncodedLength.push a
  | .pop a => Laws.EncodedLength.pop a
  | .eq a b c => Laws.EncodedLength.eq a b c
  | .gt a b c => Laws.EncodedLength.gt a b c
  | .jmp a => Laws.EncodedLength.jmp a
  | .jt a b => Laws.EncodedLength.jt a b
  | .jf a b => Laws.EncodedLength.jf a b
  | .add a b c => Laws.EncodedLength.add a b c
  | .mult a b c => Laws.EncodedLength.mult a b c
  | .mod a b c => Laws.EncodedLength.mod a b c
  | .and a b c => Laws.EncodedLength.and a b c
  | .or a b c => Laws.EncodedLength.or a b c
  | .not a b => Laws.EncodedLength.not a b
  | .rmem a b => Laws.EncodedLength.rmem a b
  | .wmem a b => Laws.EncodedLength.wmem a b
  | .call a => Laws.EncodedLength.call a
  | .ret => Laws.EncodedLength.ret
  | .out a => Laws.EncodedLength.out a
  | .inp => Laws.EncodedLength.inp
  | .noop => Laws.EncodedLength.noop
  | .illegal op => Laws.EncodedLength.illegal op

/-- `30_encoding.md` R88: an opcode word of 22..65535 is an illegal opcode. -/
theorem decode_illegal {op : Word} (h : 22 ≤ op.toNat) : decode (op :: rest) = .ok (.illegal op, rest) := by
  simp only [decode]
  split <;> try omega
  rfl

/-- In each case `change` runs the decoder on the opcode word and leaves one round trip for each operand. -/
theorem decode_encode (h : i.wf = true) : decode (encode i ++ rest) = .ok (i, rest) := by
  cases i with
  | halt | ret | inp | noop => rfl
  | illegal op => exact decode_illegal (of_decide_eq_true h)
  | push a | jmp a | call a | out a =>
    change Except.ok (_, rest) = _
    rw [decodeSrc_encodeSrc h]
  | pop a =>
    change Except.ok (_, rest) = _
    rw [decodeDst_encodeDst h]
  | set a b | not a b | rmem a b =>
    obtain ⟨ha, hb⟩ := Bool.and_eq_true_iff.mp h
    change Except.ok (_, rest) = _
    rw [decodeDst_encodeDst ha, decodeSrc_encodeSrc hb]
  | jt a b | jf a b | wmem a b =>
    obtain ⟨ha, hb⟩ := Bool.and_eq_true_iff.mp h
    change Except.ok (_, rest) = _
    rw [decodeSrc_encodeSrc ha, decodeSrc_encodeSrc hb]
  | eq a b c | gt a b c | add a b c | mult a b c | mod a b c | and a b c | or a b c =>
    obtain ⟨hab, hc⟩ := Bool.and_eq_true_iff.mp h
    obtain ⟨ha, hb⟩ := Bool.and_eq_true_iff.mp hab
    change Except.ok (_, rest) = _
    rw [decodeDst_encodeDst ha, decodeSrc_encodeSrc hb, decodeSrc_encodeSrc hc]

theorem encode_of_decode (h : decode ws = .ok (i, rest)) : encode i ++ rest = ws := by
  obtain ⟨hop, hwf⟩ := decode_opcode h
  obtain ⟨tl, rfl⟩ := List.head?_eq_some_iff.mp hop
  cases i with
  | halt | ret | inp | noop => cases h; rfl
  | illegal op =>
    rw [show (Instr.illegal op).opcode = op from rfl, decode_illegal (of_decide_eq_true hwf)] at h
    cases h
    rfl
  | push | jmp | call | out =>
    obtain ⟨wa, rfl, he⟩ := decodeF1R_eq_ok.mp h
    cases he
    simp [encode, encodeOperands, encodeSrc_decodeSrc]
  | pop =>
    obtain ⟨wa, rfl, he⟩ := decodeF1W_eq_ok.mp h
    cases he
    simp [encode, encodeOperands, encodeDst_decodeDst]
  | set | not | rmem =>
    obtain ⟨wa, wb, rfl, he⟩ := decodeF2WR_eq_ok.mp h
    cases he
    simp [encode, encodeOperands, encodeDst_decodeDst, encodeSrc_decodeSrc]
  | jt | jf | wmem =>
    obtain ⟨wa, wb, rfl, he⟩ := decodeF2RR_eq_ok.mp h
    cases he
    simp [encode, encodeOperands, encodeSrc_decodeSrc]
  | eq | gt | add | mult | mod | and | or =>
    obtain ⟨wa, wb, wc, rfl, he⟩ := decodeF3WRR_eq_ok.mp h
    cases he
    simp [encode, encodeOperands, encodeDst_decodeDst, encodeSrc_decodeSrc]

end Encoding

/-- Settles O6, by the format of the instruction: its operand words decode to the operands they encode. -/
theorem decodeOfEncodeIsTheInstruction : Obligations.DecodeOfEncodeIsTheInstruction :=
  fun _ _ => decode_encode

/-- Settles O7: the opcode word read fixes the format, and encoding undoes the decoding of each operand word. -/
theorem encodeOfDecodeIsTheWords : Obligations.EncodeOfDecodeIsTheWords := by
  intro ws rest i h
  have hwf := (decode_opcode h).2
  exact ⟨hwf, encode_of_decode h, (encodedLength i hwf).1⟩

/-- Settles O8: the opcode word alone selects the row. -/
theorem opcodeMapIsRead : Obligations.OpcodeMapIsRead := by
  intro wa wb wc rest
  and_intros <;> rfl

/-- Settles O9: seven word lists, evaluated. -/
theorem writtenOutWordsDecode : Obligations.WrittenOutWordsDecode := by
  and_intros <;> rfl

end Sys2Proof

namespace Sys2Proof.Machine

/-! ### Operand words, by their range -/

section OperandWords

variable {s : State} {raw : Word} {r : Reg}

theorem resolve_decodeSrc_lit (h : raw.toNat ≤ 32767) : resolve s (decodeSrc raw) = .ok raw := by
  rw [decodeSrc_lit h, resolve]
  congr 1
  apply BitVec.eq_of_toNat_eq
  simp only [BitVec.toNat_setWidth]
  omega

theorem resolve_decodeSrc_reg (h : raw.toNat = 32768 + r.val) : resolve s (decodeSrc raw) = .ok s.regs[r] := by
  rw [decodeSrc_reg h]
  rfl

theorem resolve_decodeSrc_invalid (h : 32776 ≤ raw.toNat) :
    resolve s (decodeSrc raw) = .error .invalidOperandCode := by
  rw [decodeSrc_invalid h]
  rfl

/-- `30_encoding.md` R84: bit 15 tells a Literal from the other two classes. -/
theorem bit15_clear_iff : raw.getLsbD 15 = false ↔ raw.toNat ≤ 32767 := by
  rw [show raw.getLsbD 15 = raw.msb from (BitVec.msb_eq_getLsbD_last raw).symm, BitVec.msb_eq_false_iff_two_mul_lt]
  omega

/-- `30_encoding.md` R84: with bit 15 set, bits 14:3 tell a Register Reference from an invalid word. -/
theorem bits14_3_clear_iff (h : 32768 ≤ raw.toNat) : raw.extractLsb' 3 12 = 0 ↔ raw.toNat ≤ 32775 := by
  have hlt := raw.isLt
  rw [← BitVec.toNat_inj, BitVec.extractLsb'_toNat, Nat.shiftRight_eq_div_pow]
  change _ = 0 ↔ _
  omega

end OperandWords

/-- Settles O10: the three ranges of a read-position word. -/
theorem resolverReadsLiteralsAndRegisters : Obligations.ResolverReadsLiteralsAndRegisters :=
  fun _ _ => ⟨resolve_decodeSrc_lit, fun _ => resolve_decodeSrc_reg, resolve_decodeSrc_invalid⟩

/-- Settles O11: each range of a read-position word is one outcome of the tests on bits 15 and 14:3. -/
theorem resolverIsTheBitDemultiplexer : Obligations.ResolverIsTheBitDemultiplexer := by
  intro s raw
  rcases word_cases raw with h | ⟨r, h⟩ | h
  · have hlit : (raw.extractLsb' 0 15).setWidth 16 = raw := by
      apply BitVec.eq_of_toNat_eq
      simp only [BitVec.toNat_setWidth, BitVec.extractLsb'_toNat, Nat.shiftRight_zero]
      omega
    rw [resolve_decodeSrc_lit h, if_pos (bit15_clear_iff.mpr h), hlit]
  · have hr := r.isLt
    have hreg : (raw.extractLsb' 0 3).toFin = r := by
      apply Fin.ext
      simp only [BitVec.toFin_extractLsb', Nat.shiftRight_zero, Fin.ofNat_eq_cast, Fin.val_natCast]
      omega
    simp only [hreg]
    rw [resolve_decodeSrc_reg h, if_neg (by rw [bit15_clear_iff]; omega),
      if_pos ((bits14_3_clear_iff (by omega)).mpr (by omega))]
  · rw [resolve_decodeSrc_invalid h, if_neg (by rw [bit15_clear_iff]; omega),
      if_neg (by rw [bits14_3_clear_iff (by omega)]; omega)]

/-- Settles O12: the register codes are exactly the valid write-position words. -/
theorem writeOperandNamesARegister : Obligations.WriteOperandNamesARegister := by
  refine fun raw => ⟨fun r h => ?_, fun h => ?_⟩
  · rw [decodeDst_reg h, regIndex]
  · rw [decodeDst_invalid h, regIndex]

/-! ### The cycle -/

section Cycle

variable {s : State} {i : Instr} {rest : List Word}

theorem step_decoded (hr : s.runState = .running) (hd : decode (fetchWindow s) = .ok (i, rest)) :
    step s = exec i s := by
  rw [step_running hr, cycle_decoded hd]

/-- Words that stand in Memory from the pc on, at most as many as the fetch reads, open the fetch window. -/
theorem isPrefix_fetchWindow {ws : List Word} (hlen : ws.length ≤ maxWords) (hfit : s.pc.toNat + ws.length ≤ memWords)
    (hws : ∀ k, (h : k < ws.length) → readWord s.mem (s.pc.toNat + k) = ws[k]) : ws <+: fetchWindow s := by
  have hwin := length_fetchWords s.mem maxWords s.pc.toNat
  refine List.prefix_iff_getElem.mpr ⟨by rw [fetchWindow, hwin]; omega, fun k hk => ?_⟩
  rw [← hws k hk]
  exact (getElem_fetchWords _).symm

/-- The words of an instruction that was fetched lie in Memory, so a sum of their addresses does not wrap
(`30_encoding.md` R97). -/
theorem fetched_words_fit (hd : decode (fetchWindow s) = .ok (i, rest)) :
    s.pc.toNat + 1 + operandCount i.opcode ≤ memWords := by
  have hlen := (encodedLength i (decode_opcode hd).2).1
  have hwin := length_fetchWords s.mem maxWords s.pc.toNat
  rw [← fetchWindow, ← encode_of_decode hd, List.length_append, hlen] at hwin
  omega

/-- `30_encoding.md` R96: the end of an instruction is a next state, with all of its writes or the fault entry. -/
theorem exists_commit_eq_next (op : Word) (s : State) (r : Except FaultKind State) :
    ∃ t, commit op s r = .next t := by
  cases r with
  | ok t => exact ⟨t, rfl⟩
  | error k => exact ⟨takeFault k (some op) s, rfl⟩

theorem exists_exec_eq_next (i : Instr) (s : State) : ∃ t, exec i s = .next t := by
  cases i with
  | halt | noop | inp | illegal => exact ⟨_, rfl⟩
  | _ => exact exists_commit_eq_next _ s _

theorem exists_cycle_eq_next (s : State) : ∃ t, cycle s = .next t := by
  unfold cycle
  split
  · exact exists_exec_eq_next _ s
  · exact ⟨_, rfl⟩
  · exact ⟨_, rfl⟩

/-- The pc after an advance by the length of an instruction whose words lie in Memory, as an exact number. -/
theorem toNat_advance_pc {n : Nat} (h : s.pc.toNat + 1 + n ≤ memWords) :
    (advance (1 + n) s).pc.toNat = s.pc.toNat + 1 + n ∧ (advance (1 + n) s).pc.toNat ≤ 32768 := by
  simp only [memWords] at h
  simp only [advance_pc, BitVec.toNat_add, BitVec.toNat_ofNat]
  omega

theorem conditionHolds_iff {v : Word} : conditionHolds v = true ↔ v ≠ 0 := by
  simp [conditionHolds]

end Cycle

/-- Settles O13: a step of a running core is the cycle, which executes what it decodes. -/
theorem stepRunsTheDecodedInstruction : Obligations.StepRunsTheDecodedInstruction :=
  fun _ _ _ hr hd _ => step_decoded hr hd

/-- Settles O14: the fetch window begins with the instruction's words, which decode to it whatever follows. -/
theorem stepRunsTheWordsAtThePc : Obligations.StepRunsTheWordsAtThePc := by
  intro s i hr hwf hfit hws
  obtain ⟨rest, hwin⟩ := isPrefix_fetchWindow (encodedLength i hwf).2 hfit hws
  exact step_decoded (rest := rest) hr (by rw [← hwin]; exact decode_encode hwf)

/-- Settles O17: the opcode word alone decodes to IN or to an illegal opcode, whose execution is the fault entry. -/
theorem unknownOpcodeFaultsAtFetch : Obligations.UnknownOpcodeFaultsAtFetch := by
  intro s hr hpc hop
  obtain ⟨rest, hwin⟩ := List.head?_eq_some_iff.mp (head?_fetchWindow (Nat.lt_succ_of_le hpc))
  rcases hop with hop | hop
  · have hd : decode (fetchWindow s) = .ok (.inp, rest) := by
      rw [hwin, hop]
      rfl
    rw [step_decoded hr hd, hop]
    rfl
  · rw [step_decoded hr (hwin ▸ decode_illegal hop)]
    rfl

/-- Settles O18: a running core takes a cycle, which always answers a next state. -/
theorem stepIsDefinedExactlyWhenRunning : Obligations.StepIsDefinedExactlyWhenRunning := by
  refine fun s => ⟨fun ⟨t, h⟩ => (step_cases h).1, fun hr => ?_⟩
  rw [step_running hr]
  exact exists_cycle_eq_next s

/-- Settles O19: a jump, CALL and RET set pc, HALT keeps it, and every other instruction that completes advances it by
its length, which does not wrap because its words were fetched. -/
theorem pcAfterACompletedInstruction : Obligations.PcAfterACompletedInstruction := by
  intro s t i rest hr hd hs hnf
  rw [step_decoded hr hd] at hs
  have hadv := toNat_advance_pc (fetched_words_fit hd)
  rcases exec_cases hs with hc | ⟨k, -, rfl⟩
  · cases hc with
    | halt => rfl
    | jmp ha | call ha => exact ha
    | ret top => simp [top]
    | jt ha hb =>
      refine ⟨_, _, ha, hb, fun hv => ?_, fun hv => ?_⟩
      · rw [if_pos (conditionHolds_iff.mpr hv), setPc_pc]
      · rw [if_neg (by simpa [conditionHolds_iff] using hv)]
        exact hadv.1
    | jf ha hb =>
      refine ⟨_, _, ha, hb, fun hv => ?_, fun hv => ?_⟩
      · rw [if_neg (by simpa [conditionHolds_iff] using hv), setPc_pc]
      · rw [if_pos (conditionHolds_iff.mpr hv)]
        exact hadv.1
    | _ => exact hadv
  · exact absurd rfl hnf

end Sys2Proof.Machine

namespace Sys2Proof.Machine

/-! ### HALT and NOOP, and a fetch above Memory -/

section MachineControl

variable {s : State} {i : Instr} {op : Word}

/-- `30_encoding.md` R94 for an opcode word that decodes whatever follows it, as one without operand words does. -/
theorem step_of_opcode_word (hr : s.runState = .running) (hpc : s.pc.toNat < memWords)
    (hop : readWord s.mem s.pc.toNat = op) (hdec : ∀ rest, decode (op :: rest) = .ok (i, rest)) :
    step s = exec i s := by
  obtain ⟨rest, hwin⟩ := List.head?_eq_some_iff.mp (head?_fetchWindow hpc)
  exact step_decoded (rest := rest) hr (by rw [hwin, hop, hdec])

/-- `30_encoding.md` R94 step 1: a pc above Memory leaves no opcode word to fetch. -/
theorem step_of_pc_past_memory (hr : s.runState = .running) (hpc : memWords ≤ s.pc.toNat) :
    step s = .next (takeFault .memoryOutOfRange none s) := by
  have hdec : decode (fetchWindow s) = .error .noOpcode := decode_fetchWindow_eq_error.mpr (.inl ⟨hpc, rfl⟩)
  rw [step_running hr, cycle, hdec]

theorem exec_halt_eq (s : State) : exec .halt s = .next (setRunState .halted s) := rfl

theorem exec_noop_eq (s : State) : exec .noop s = .next (setPc (s.pc + 1) s) := rfl

theorem decode_noop (rest : List Word) : decode (21 :: rest) = .ok (.noop, rest) := rfl

theorem exitStatus_of_halted (h : s.runState = .halted) : exitStatus s = some 0 := by
  rw [exitStatus, h]

end MachineControl

/-- Settles O20: HALT moves RUN_STATE alone, to a state that takes no step; the word 0 at pc is HALT, and Memory without
cells reads 0. -/
theorem haltEndsTheRun : Obligations.HaltEndsTheRun :=
  ⟨fun _ => rfl,
    fun s => ⟨exec_halt_eq s, exitStatus_of_halted rfl, fun _ => step_not_running nofun⟩,
    fun _ hr hpc hzero => step_of_word_zero hr (Nat.lt_succ_of_le hpc) hzero,
    readWord_nil⟩

/-- Settles O21: NOOP at 32767 advances pc to 32768, from where the fetch finds no opcode word. -/
theorem noopOnlyAdvancesPc : Obligations.NoopOnlyAdvancesPc := by
  refine ⟨decode_noop, exec_noop_eq, fun s hr hpc hop => ⟨?_, step_of_pc_past_memory hr (by simp [memWords])⟩⟩
  have hpcNat : s.pc.toNat = 32767 := by
    rw [hpc]
    rfl
  rw [step_of_opcode_word hr (by simp [hpcNat, memWords]) (hpcNat ▸ hop) decode_noop, exec_noop_eq, hpc]
  rfl

end Sys2Proof.Machine

namespace Sys2Proof.Machine

/-! ### The clauses that instructions with operands share -/

section SharedClauses

variable {s t : State} {i : Instr} {op : Word}

/-- `30_encoding.md` R94 step 3, for an opcode whose format has `n` operand words. -/
theorem missingOperandFaults_of_operandCount {n : Nat} (hn : operandCount op = n) : MissingOperandFaults op n := by
  intro s hr hpc hop hmissing
  have hdec : decode (fetchWindow s) = .error (.truncated op) :=
    decode_fetchWindow_eq_error.mpr
      (.inr ⟨Nat.lt_succ_of_le hpc, by rw [hop, hn]; exact hmissing, by rw [hop]⟩)
  rw [step_running hr, cycle, hdec]

theorem Completes.legal (h : Completes s i t) : i.legal = true := by
  cases h with
  | halt | noop | ret => rfl
  | push ha | jmp ha | call ha | out ha => exact legal_of_resolve ha
  | pop ha => exact legal_of_regIndex ha
  | jt ha hb | jf ha hb | wmem ha hb => simp [Instr.legal, legal_of_resolve ha, legal_of_resolve hb]
  | set ha hb | not ha hb | rmem ha hb => simp [Instr.legal, legal_of_regIndex ha, legal_of_resolve hb]
  | eq ha hb hc | gt ha hb hc | add ha hb hc | mult ha hb hc | mod ha hb hc | and ha hb hc | or ha hb hc =>
    simp [Instr.legal, legal_of_regIndex ha, legal_of_resolve hb, legal_of_resolve hc]

/-- `30_encoding.md` R94 step 4: an instruction with an operand outside its valid codes raises InvalidOperandCode
before any check of its own. -/
theorem invalidOperandFaults_of_not_legal (hl : i.legal = false) (hops : encodeOperands i ≠ []) :
    InvalidOperandFaults i.opcode i := by
  intro s
  obtain ⟨t, ht⟩ := exists_exec_eq_next i s
  rcases exec_cases ht with hc | ⟨k, ⟨-, rfl | ⟨op, rfl⟩⟩ | ⟨rfl, -, -⟩ | ⟨hlegal, -⟩, rfl⟩
  · simp [hc.legal] at hl
  · exact absurd rfl hops
  · exact absurd rfl hops
  · exact ht
  · simp [hlegal] at hl

end SharedClauses

/-! ### SET, PUSH and POP -/

section RegisterStack

variable {s : State} {r : Reg} {v : Word}

theorem exec_set_eq {a : Dst} {b : Src} (ha : regIndex a = .ok r) (hb : resolve s b = .ok v) :
    exec (.set a b) s = .next (advance 3 (writeReg r v s)) :=
  commit_eq_next.mpr <| .inl <| withWR_eq_ok.mpr ⟨r, v, ha, hb, rfl⟩

theorem exec_push_eq {a : Src} (ha : resolve s a = .ok v) (room : stackFull s = false) :
    exec (.push a) s = .next (advance 2 (setStack (s.stack ++ [v]) s)) :=
  commit_eq_next.mpr <| .inl <| withR_eq_ok.mpr ⟨v, ha, map_eq_ok.mpr ⟨_, pushWord_eq_ok.mpr ⟨room, rfl⟩, rfl⟩⟩

theorem exec_push_of_full {a : Src} (ha : resolve s a = .ok v) (full : stackFull s = true) :
    exec (.push a) s = .next (takeFault .stackOverflow (some 2) s) :=
  commit_eq_next.mpr <| .inr ⟨_, withR_eq_error.mpr <| .inr
    ⟨v, ha, map_eq_error.mpr <| pushWord_eq_error.mpr ⟨full, rfl⟩⟩, rfl⟩

theorem exec_pop_eq {a : Dst} {l : List Word} (ha : regIndex a = .ok r) (top : s.stack = l ++ [v]) :
    exec (.pop a) s = .next (advance 2 (writeReg r v (setStack l s))) :=
  commit_eq_next.mpr <| .inl <| withW_eq_ok.mpr ⟨r, ha, map_eq_ok.mpr ⟨_, popWord_eq_ok.mpr ⟨l, top, rfl⟩, rfl⟩⟩

theorem exec_pop_of_empty {a : Dst} (ha : regIndex a = .ok r) (empty : s.stack = []) :
    exec (.pop a) s = .next (takeFault .stackUnderflow (some 3) s) :=
  commit_eq_next.mpr <| .inr ⟨_, withW_eq_error.mpr <| .inr
    ⟨r, ha, map_eq_error.mpr <| popWord_eq_error.mpr ⟨empty, rfl⟩⟩, rfl⟩

/-- `41_register_stack.md` R117 after R116: the entry pushed is the top that POP then moves. -/
theorem exec_pop_after_push {a : Dst} {b : Src} (hb : resolve s b = .ok v) (ha : regIndex a = .ok r)
    (room : stackFull s = false) :
    ∃ t u, exec (.push b) s = .next t ∧ exec (.pop a) t = .next u ∧ u.regs[r] = v ∧ u.stack = s.stack :=
  ⟨_, _, exec_push_eq hb room, exec_pop_eq ha rfl, by simp, rfl⟩

end RegisterStack

/-- Settles O22: the format has two operand words, an operand outside its codes ends the decoding of operands, and
else SET writes the one register. -/
theorem setCopiesTheValue : Obligations.SetCopiesTheValue :=
  ⟨fun _ _ _ => rfl,
    missingOperandFaults_of_operandCount rfl,
    fun a b h =>
      invalidOperandFaults_of_not_legal (i := .set a b) (by rw [Instr.legal, Bool.and_eq_false_iff]; exact h) nofun,
    fun _ _ _ _ _ ha hb => exec_set_eq ha hb⟩

/-- Settles O23: PUSH with a valid operand completes or overflows as the stack has room or is full. -/
theorem pushAppendsAtTheTop : Obligations.PushAppendsAtTheTop :=
  ⟨fun _ _ => rfl,
    missingOperandFaults_of_operandCount rfl,
    fun a h => invalidOperandFaults_of_not_legal (i := .push a) h nofun,
    fun _ _ _ ha room => exec_push_eq ha (stackFull_eq_false.mpr room),
    fun _ _ _ n ha hcap hfull => exec_push_of_full ha (stackFull_eq_true.mpr ⟨n, hcap, hfull⟩)⟩

/-- Settles O24: POP with a valid operand completes or underflows as the stack has a top or is empty, and the top
after a PUSH is the entry pushed. -/
theorem popMovesTheTopToARegister : Obligations.PopMovesTheTopToARegister :=
  ⟨fun _ _ => rfl,
    missingOperandFaults_of_operandCount rfl,
    fun a h => invalidOperandFaults_of_not_legal (i := .pop a) h nofun,
    fun _ _ _ _ _ ha top => exec_pop_eq ha top,
    fun _ _ _ ha empty => exec_pop_of_empty ha empty,
    fun _ _ _ _ _ hb ha room => exec_pop_after_push hb ha (stackFull_eq_false.mpr room)⟩

end Sys2Proof.Machine

namespace Sys2Proof.Machine

/-! ### EQ and GT -/

section Compare

variable {s : State} {a : Dst} {b c : Src} {r : Reg} {vb vc : Word}

/-- The instructions of format F3WRR without a check of their own: with valid operands they write `f` of the two values
read, and advance. -/
theorem commit_withWRR_write (op : Word) (f : Word → Word → Word) (ha : regIndex a = .ok r)
    (hb : resolve s b = .ok vb) (hc : resolve s c = .ok vc) :
    commit op s (withWRR s a b c fun r vb vc => .ok (advance 4 (writeReg r (f vb vc) s))) =
      .next (advance 4 (writeReg r (f vb vc) s)) :=
  commit_eq_next.mpr <| .inl <| withWRR_eq_ok.mpr ⟨r, vb, vc, ha, hb, hc, rfl⟩

/-- An operand outside its valid codes, of three, makes the instruction illegal. -/
theorem legal3_eq_false (h : a.legal = false ∨ b.legal = false ∨ c.legal = false) :
    (a.legal && b.legal && c.legal) = false := by
  rwa [Bool.and_assoc, Bool.and_eq_false_iff, Bool.and_eq_false_iff]

theorem aluEq_eq_ite (vb vc : Word) : aluEq vb vc = if vb.toNat = vc.toNat then 1 else 0 := by
  simp [aluEq, boolWord, BitVec.toNat_inj]

theorem aluGt_eq_ite (vb vc : Word) : aluGt vb vc = if vc.toNat < vb.toNat then 1 else 0 := by
  simp [aluGt, boolWord]

theorem exec_eq_eq (ha : regIndex a = .ok r) (hb : resolve s b = .ok vb) (hc : resolve s c = .ok vc) :
    exec (.eq a b c) s = .next (advance 4 (writeReg r (if vb.toNat = vc.toNat then 1 else 0) s)) := by
  rw [← aluEq_eq_ite]
  exact commit_withWRR_write 4 aluEq ha hb hc

theorem exec_gt_eq (ha : regIndex a = .ok r) (hb : resolve s b = .ok vb) (hc : resolve s c = .ok vc) :
    exec (.gt a b c) s = .next (advance 4 (writeReg r (if vc.toNat < vb.toNat then 1 else 0) s)) := by
  rw [← aluGt_eq_ite]
  exact commit_withWRR_write 5 aluGt ha hb hc

end Compare

/-- Settles O25: the format has three operand words, an operand outside its codes ends the decoding of operands, and
else EQ writes whether the two values are the same number. -/
theorem eqWritesWhetherEqual : Obligations.EqWritesWhetherEqual :=
  ⟨fun _ _ _ _ => rfl,
    missingOperandFaults_of_operandCount rfl,
    fun a b c h => invalidOperandFaults_of_not_legal (i := .eq a b c) (legal3_eq_false h) nofun,
    fun _ _ _ _ _ _ _ ha hb hc => exec_eq_eq ha hb hc⟩

/-- Settles O26: the format has three operand words, an operand outside its codes ends the decoding of operands, and
else GT writes whether the first value is the greater number. -/
theorem gtWritesWhetherGreaterUnsigned : Obligations.GtWritesWhetherGreaterUnsigned :=
  ⟨fun _ _ _ _ => rfl,
    missingOperandFaults_of_operandCount rfl,
    fun a b c h => invalidOperandFaults_of_not_legal (i := .gt a b c) (legal3_eq_false h) nofun,
    fun _ _ _ _ _ _ _ ha hb hc => exec_gt_eq ha hb hc⟩

end Sys2Proof.Machine

namespace Sys2Proof.Machine

/-! ### The jumps, CALL and RET -/

section ControlFlow

variable {s : State} {a b : Src} {v va vb : Word} {l : List Word}

theorem pcPastMemoryFaults : PcPastMemoryFaults :=
  fun _ => step_of_pc_past_memory

/-- A conditional jump changes pc alone, and any non-zero word counts as true (`43_control_flow.md` R126, R127). -/
theorem ite_conditionHolds_setPc (v x y : Word) (s : State) :
    (if conditionHolds v then setPc x s else setPc y s) = setPc (if v ≠ 0 then x else y) s := by
  simp only [conditionHolds_iff]
  exact (apply_ite (setPc · s) _ x y).symm

theorem exec_jmp_eq (ha : resolve s a = .ok v) : exec (.jmp a) s = .next (setPc v s) :=
  commit_eq_next.mpr <| .inl <| withR_eq_ok.mpr ⟨v, ha, rfl⟩

theorem exec_jt_eq (ha : resolve s a = .ok va) (hb : resolve s b = .ok vb) :
    exec (.jt a b) s = .next (setPc (if va ≠ 0 then vb else s.pc + 3) s) := by
  rw [← ite_conditionHolds_setPc]
  exact commit_eq_next.mpr <| .inl <| withRR_eq_ok.mpr ⟨va, vb, ha, hb, rfl⟩

theorem exec_jf_eq (ha : resolve s a = .ok va) (hb : resolve s b = .ok vb) :
    exec (.jf a b) s = .next (setPc (if va = 0 then vb else s.pc + 3) s) := by
  rw [← ite_not, ← ite_conditionHolds_setPc]
  exact commit_eq_next.mpr <| .inl <| withRR_eq_ok.mpr ⟨va, vb, ha, hb, rfl⟩

theorem exec_call_eq (ha : resolve s a = .ok v) (room : stackFull s = false) :
    exec (.call a) s = .next (setPc v (setStack (s.stack ++ [s.pc + 2]) s)) :=
  commit_eq_next.mpr <| .inl <| withR_eq_ok.mpr ⟨v, ha, map_eq_ok.mpr ⟨_, pushWord_eq_ok.mpr ⟨room, rfl⟩, rfl⟩⟩

theorem exec_call_of_full (ha : resolve s a = .ok v) (full : stackFull s = true) :
    exec (.call a) s = .next (takeFault .stackOverflow (some 17) s) :=
  commit_eq_next.mpr <| .inr ⟨_, withR_eq_error.mpr <| .inr
    ⟨v, ha, map_eq_error.mpr <| pushWord_eq_error.mpr ⟨full, rfl⟩⟩, rfl⟩

theorem exec_ret_eq (top : s.stack = l ++ [v]) : exec .ret s = .next (setPc v (setStack l s)) :=
  commit_eq_next.mpr <| .inl <| map_eq_ok.mpr ⟨_, popWord_eq_ok.mpr ⟨l, top, rfl⟩, rfl⟩

theorem exec_ret_of_empty (empty : s.stack = []) :
    exec .ret s = .next (takeFault .stackUnderflow (some 18) s) :=
  commit_eq_next.mpr <| .inr ⟨_, map_eq_error.mpr <| popWord_eq_error.mpr ⟨empty, rfl⟩, rfl⟩

/-- `43_control_flow.md` R128 and R129: RET finds the return address on top and puts back the stack as it was before
CALL. -/
theorem exec_ret_after_call (ha : resolve s a = .ok v) (room : stackFull s = false) :
    ∃ t, exec (.call a) s = .next t ∧ t.pc = v ∧ exec .ret t = .next (setPc (s.pc + 2) s) :=
  ⟨_, exec_call_eq ha room, rfl, exec_ret_eq rfl⟩

theorem exitStatus_of_faulted (h : s.runState = .faulted) : exitStatus s = some s.config.faultExitCode := by
  rw [exitStatus, h]

end ControlFlow

/-- Settles O27: JMP with a valid operand sets pc to its value, whatever that is, and a pc above Memory faults at the
next fetch. -/
theorem jmpSetsPc : Obligations.JmpSetsPc :=
  ⟨fun _ _ => rfl,
    missingOperandFaults_of_operandCount rfl,
    fun a h => invalidOperandFaults_of_not_legal (i := .jmp a) h nofun,
    fun _ _ _ ha => exec_jmp_eq ha,
    pcPastMemoryFaults⟩

/-- Settles O28: both operands are decoded before the condition is tested, so an invalid b faults in either branch. -/
theorem jtJumpsWhenNonZero : Obligations.JtJumpsWhenNonZero :=
  ⟨fun _ _ _ => rfl,
    missingOperandFaults_of_operandCount rfl,
    fun a b h => invalidOperandFaults_of_not_legal (i := .jt a b) (Bool.and_eq_false_iff.mpr h) nofun,
    fun _ _ _ _ _ ha hb => exec_jt_eq ha hb⟩

/-- Settles O29: as for JT, with the branches exchanged. -/
theorem jfJumpsWhenZero : Obligations.JfJumpsWhenZero :=
  ⟨fun _ _ _ => rfl,
    missingOperandFaults_of_operandCount rfl,
    fun a b h => invalidOperandFaults_of_not_legal (i := .jf a b) (Bool.and_eq_false_iff.mpr h) nofun,
    fun _ _ _ _ _ ha hb => exec_jf_eq ha hb⟩

/-- Settles O30: CALL with a valid operand completes or overflows as the stack has room or is full, and the entry it
pushes is the one a RET pops. -/
theorem callPushesTheReturnAddress : Obligations.CallPushesTheReturnAddress :=
  ⟨fun _ _ => rfl,
    missingOperandFaults_of_operandCount rfl,
    fun a h => invalidOperandFaults_of_not_legal (i := .call a) h nofun,
    fun _ _ _ ha room => exec_call_eq ha (stackFull_eq_false.mpr room),
    fun _ _ _ n ha hcap hfull => exec_call_of_full ha (stackFull_eq_true.mpr ⟨n, hcap, hfull⟩),
    fun _ _ _ ha room => exec_ret_after_call ha (stackFull_eq_false.mpr room),
    pcPastMemoryFaults⟩

/-- Settles O31: RET completes or underflows as the stack has a top or is empty; the underflow leaves a faulted state,
whose exit status is FAULT_EXIT_CODE. -/
theorem retPopsThePc : Obligations.RetPopsThePc :=
  ⟨fun _ => rfl,
    fun _ _ _ top => exec_ret_eq top,
    fun _ empty => ⟨exec_ret_of_empty empty, exitStatus_of_faulted rfl⟩,
    pcPastMemoryFaults⟩

end Sys2Proof.Machine

namespace Sys2Proof.Machine

/-! ### What the arithmetic unit computes -/

section Alu

variable {k : Nat}

/-- Narrowing to 16 bits loses nothing of a number that fits. -/
theorem toNat_ofNat_of_lt {n : Nat} (h : n < 65536) : (BitVec.ofNat 16 n).toNat = n :=
  (BitVec.toNat_ofNat n 16).trans (Nat.mod_eq_of_lt h)

/-- `44_arithmetic_logic.md` R135: the sum is exact until it is reduced. -/
@[simp] theorem toNat_aluAdd (b c : Word) : (aluAdd b c).toNat = (b.toNat + c.toNat) % 32768 :=
  toNat_ofNat_of_lt ((Nat.mod_lt _ (by decide)).trans (by decide))

/-- `44_arithmetic_logic.md` R136: so is the product. -/
@[simp] theorem toNat_aluMult (b c : Word) : (aluMult b c).toNat = (b.toNat * c.toNat) % 32768 :=
  toNat_ofNat_of_lt ((Nat.mod_lt _ (by decide)).trans (by decide))

/-- `44_arithmetic_logic.md` R137: the remainder is no larger than the dividend, so it is a word. -/
theorem toNat_ofNat_remainder (b c : Word) :
    (BitVec.ofNat 16 (b.toNat % c.toNat)).toNat = b.toNat % c.toNat :=
  toNat_ofNat_of_lt ((Nat.mod_le _ _).trans_lt b.isLt)

theorem aluMod_of_ne_zero {b c : Word} (h : c ≠ 0) : aluMod b c = .ok (BitVec.ofNat 16 (b.toNat % c.toNat)) :=
  if_neg h

theorem aluMod_zero (b : Word) : aluMod b 0 = .error .divisionByZero :=
  if_pos rfl

/-- The mask 0x7FFF keeps bits 14:0, so what it leaves of the complement is 32767 minus those bits. -/
@[simp] theorem toNat_aluNot (b : Word) : (aluNot b).toNat = 32767 - b.toNat % 32768 := by
  have hmask : (aluNot b).toNat = (65535 - b.toNat) % 32768 := by
    rw [aluNot, BitVec.toNat_and, BitVec.toNat_not]
    exact Nat.and_two_pow_sub_one_eq_mod _ 15
  omega

theorem getLsbD_aluNot (b : Word) (hk : k < 15) : (aluNot b).getLsbD k = !b.getLsbD k := by
  have hmask : (0x7FFF : Word).getLsbD k = true :=
    (Nat.testBit_two_pow_sub_one 15 k).trans (decide_eq_true hk)
  rw [aluNot, BitVec.getLsbD_and, hmask, Bool.and_true, BitVec.getLsbD_not, decide_eq_true (by omega), Bool.true_and]

theorem getLsbD_aluNot_15 (b : Word) : (aluNot b).getLsbD 15 = false := by
  rw [bit15_clear_iff, toNat_aluNot]
  exact Nat.sub_le _ _

theorem toNat_aluNot_aluNot (b : Word) : (aluNot (aluNot b)).toNat = b.toNat % 32768 := by
  rw [toNat_aluNot, toNat_aluNot]
  omega

end Alu

/-! ### ADD, MULT, MOD, AND, OR and NOT -/

section ArithLogic

variable {s : State} {a : Dst} {b c : Src} {r : Reg} {vb vc : Word}

theorem exec_add_eq (ha : regIndex a = .ok r) (hb : resolve s b = .ok vb) (hc : resolve s c = .ok vc) :
    exec (.add a b c) s = .next (advance 4 (writeReg r (aluAdd vb vc) s)) :=
  commit_withWRR_write 9 aluAdd ha hb hc

theorem exec_mult_eq (ha : regIndex a = .ok r) (hb : resolve s b = .ok vb) (hc : resolve s c = .ok vc) :
    exec (.mult a b c) s = .next (advance 4 (writeReg r (aluMult vb vc) s)) :=
  commit_withWRR_write 10 aluMult ha hb hc

theorem exec_mod_eq (ha : regIndex a = .ok r) (hb : resolve s b = .ok vb) (hc : resolve s c = .ok vc)
    (nonzero : vc ≠ 0) :
    exec (.mod a b c) s = .next (advance 4 (writeReg r (BitVec.ofNat 16 (vb.toNat % vc.toNat)) s)) :=
  commit_eq_next.mpr <| .inl <| withWRR_eq_ok.mpr
    ⟨r, vb, vc, ha, hb, hc, map_eq_ok.mpr ⟨_, aluMod_of_ne_zero nonzero, rfl⟩⟩

theorem exec_mod_of_zero (ha : regIndex a = .ok r) (hb : resolve s b = .ok vb) (hc : resolve s c = .ok 0) :
    exec (.mod a b c) s = .next (takeFault .divisionByZero (some 11) s) :=
  commit_eq_next.mpr <| .inr ⟨_, withWRR_eq_error.mpr <| .inr
    ⟨r, vb, 0, ha, hb, hc, map_eq_error.mpr (aluMod_zero vb)⟩, rfl⟩

theorem exec_and_eq (ha : regIndex a = .ok r) (hb : resolve s b = .ok vb) (hc : resolve s c = .ok vc) :
    exec (.and a b c) s = .next (advance 4 (writeReg r (vb &&& vc) s)) :=
  commit_withWRR_write 12 aluAnd ha hb hc

theorem exec_or_eq (ha : regIndex a = .ok r) (hb : resolve s b = .ok vb) (hc : resolve s c = .ok vc) :
    exec (.or a b c) s = .next (advance 4 (writeReg r (vb ||| vc) s)) :=
  commit_withWRR_write 13 aluOr ha hb hc

theorem exec_not_eq (ha : regIndex a = .ok r) (hb : resolve s b = .ok vb) :
    exec (.not a b) s = .next (advance 3 (writeReg r (aluNot vb) s)) :=
  commit_eq_next.mpr <| .inl <| withWR_eq_ok.mpr ⟨r, vb, ha, hb, rfl⟩

/-- `44_arithmetic_logic.md` R140 done twice: the second NOT reads the register the first one wrote. -/
theorem exec_not_not (s : State) (q r : Reg) :
    ∃ t u, exec (.not (.reg r) (.reg q)) s = .next t ∧ exec (.not (.reg r) (.reg r)) t = .next u ∧
      u.regs[r].toNat = s.regs[q].toNat % 32768 := by
  refine ⟨_, _, exec_not_eq rfl rfl, exec_not_eq rfl rfl, ?_⟩
  simpa [readReg] using toNat_aluNot_aluNot s.regs[q]

end ArithLogic

/-- Settles O32: the format has three operand words, an operand outside its codes ends the decoding of operands, and
else ADD writes the reduced sum. -/
theorem addReducesTheSum : Obligations.AddReducesTheSum :=
  ⟨fun _ _ _ _ => rfl,
    missingOperandFaults_of_operandCount rfl,
    fun a b c h => invalidOperandFaults_of_not_legal (i := .add a b c) (legal3_eq_false h) nofun,
    fun _ _ _ _ _ vb vc ha hb hc => ⟨aluAdd vb vc, toNat_aluAdd vb vc, exec_add_eq ha hb hc⟩⟩

/-- Settles O33: as for ADD, with the reduced product. -/
theorem multReducesTheProduct : Obligations.MultReducesTheProduct :=
  ⟨fun _ _ _ _ => rfl,
    missingOperandFaults_of_operandCount rfl,
    fun a b c h => invalidOperandFaults_of_not_legal (i := .mult a b c) (legal3_eq_false h) nofun,
    fun _ _ _ _ _ vb vc ha hb hc => ⟨aluMult vb vc, toNat_aluMult vb vc, exec_mult_eq ha hb hc⟩⟩

/-- Settles O34: the divisor is tested after the operands are decoded, so an invalid operand is reported even beside
the divisor 0. -/
theorem modGivesTheRemainderOrFaults : Obligations.ModGivesTheRemainderOrFaults :=
  ⟨fun _ _ _ _ => rfl,
    missingOperandFaults_of_operandCount rfl,
    fun a b c h => invalidOperandFaults_of_not_legal (i := .mod a b c) (legal3_eq_false h) nofun,
    fun _ _ _ _ _ vb vc ha hb hc nonzero => ⟨_, toNat_ofNat_remainder vb vc, exec_mod_eq ha hb hc nonzero⟩,
    fun _ _ _ _ _ _ ha hb hc => exec_mod_of_zero ha hb hc⟩

/-- Settles O35: as for ADD, with the bitwise AND, no bit masked. -/
theorem andIsBitwiseOnSixteenBits : Obligations.AndIsBitwiseOnSixteenBits :=
  ⟨fun _ _ _ _ => rfl,
    missingOperandFaults_of_operandCount rfl,
    fun a b c h => invalidOperandFaults_of_not_legal (i := .and a b c) (legal3_eq_false h) nofun,
    fun _ _ _ _ _ vb vc ha hb hc => ⟨vb &&& vc, fun _ _ => BitVec.getLsbD_and, exec_and_eq ha hb hc⟩⟩

/-- Settles O36: as for ADD, with the bitwise OR, no bit masked. -/
theorem orIsBitwiseOnSixteenBits : Obligations.OrIsBitwiseOnSixteenBits :=
  ⟨fun _ _ _ _ => rfl,
    missingOperandFaults_of_operandCount rfl,
    fun a b c h => invalidOperandFaults_of_not_legal (i := .or a b c) (legal3_eq_false h) nofun,
    fun _ _ _ _ _ vb vc ha hb hc => ⟨vb ||| vc, fun _ _ => BitVec.getLsbD_or, exec_or_eq ha hb hc⟩⟩

/-- Settles O37: NOT writes the complement of bits 14:0, and as it clears bit 15 a second NOT gives those bits back. -/
theorem notComplementsFifteenBits : Obligations.NotComplementsFifteenBits :=
  ⟨fun _ _ _ => rfl,
    missingOperandFaults_of_operandCount rfl,
    fun a b h => invalidOperandFaults_of_not_legal (i := .not a b) (Bool.and_eq_false_iff.mpr h) nofun,
    fun _ _ _ _ vb ha hb =>
      ⟨aluNot vb, toNat_aluNot vb, getLsbD_aluNot_15 vb, fun _ hk => getLsbD_aluNot vb hk, exec_not_eq ha hb⟩,
    exec_not_not⟩

/-! ### Registers that hold Literals -/

section Literals

variable {s t : State} {i : Instr} {x : Src} {r : Reg} {v b c : Word}

/-- Every register holds a value of a Literal, 0 to 32767 (`10_state.md` R24). -/
def RegsHoldLiterals (s : State) : Prop := ∀ r : Reg, s.regs[r].toNat ≤ 32767

theorem RegsHoldLiterals.resolve_le (hs : RegsHoldLiterals s) (hx : resolve s x = .ok v) : v.toNat ≤ 32767 := by
  cases x with
  | lit w =>
    cases hx
    rw [BitVec.toNat_setWidth_of_le (by decide)]
    exact Nat.le_of_lt_succ w.isLt
  | reg r =>
    cases hx
    exact hs r
  | invalid raw => cases hx

theorem RegsHoldLiterals.set (hs : RegsHoldLiterals s) (hv : v.toNat ≤ 32767) (ht : t.regs = s.regs.set r v) :
    RegsHoldLiterals t := by
  intro r'
  simp only [ht, Fin.getElem_fin, Vector.getElem_set]
  split
  · exact hv
  · exact hs r'

theorem toNat_boolWord_le (p : Bool) : (boolWord p).toNat ≤ 32767 := by
  cases p <;> decide

theorem toNat_aluAnd_le (hb : b.toNat ≤ 32767) : (aluAnd b c).toNat ≤ 32767 := by
  rw [aluAnd, BitVec.toNat_and]
  exact Nat.and_le_left.trans hb

theorem toNat_aluOr_le (hb : b.toNat ≤ 32767) (hc : c.toNat ≤ 32767) : (aluOr b c).toNat ≤ 32767 := by
  rw [aluOr, BitVec.toNat_or]
  exact Nat.le_of_lt_succ (Nat.or_lt_two_pow (n := 15) (Nat.lt_succ_of_le hb) (Nat.lt_succ_of_le hc))

/-- `44_arithmetic_logic.md` R134: of the values an instruction can write, only a memory word and a stack entry come
from outside the registers and Literals it reads. -/
theorem Completes.regsHoldLiterals (h : Completes s i t) (hs : RegsHoldLiterals s) (hrmem : ∀ a b, i ≠ .rmem a b)
    (hpop : ∀ a, i ≠ .pop a) : RegsHoldLiterals t := by
  cases h with
  | rmem => exact absurd rfl (hrmem _ _)
  | pop => exact absurd rfl (hpop _)
  | set _ hb => exact hs.set (hs.resolve_le hb) rfl
  | eq | gt => exact hs.set (toNat_boolWord_le _) rfl
  | add => exact hs.set (by rw [toNat_aluAdd]; omega) rfl
  | mult => exact hs.set (by rw [toNat_aluMult]; omega) rfl
  | mod _ hb =>
    refine hs.set ?_ rfl
    rw [toNat_ofNat_remainder]
    exact (Nat.mod_le _ _).trans (hs.resolve_le hb)
  | and _ hb => exact hs.set (toNat_aluAnd_le (hs.resolve_le hb)) rfl
  | or _ hb hc => exact hs.set (toNat_aluOr_le (hs.resolve_le hb) (hs.resolve_le hc)) rfl
  | not => exact hs.set (by rw [toNat_aluNot]; omega) rfl
  | jt | jf => split <;> exact hs
  | _ => exact hs

end Literals

/-- Settles O44: a fault entry keeps the registers, and an instruction that completes writes at most a value made of
those it read, unless it is RMEM or POP. -/
theorem literalsStayLiteralsButForRmemAndPop : Obligations.LiteralsStayLiteralsButForRmemAndPop := by
  intro i s t hs h hrmem hpop
  rcases exec_cases h with hc | ⟨k, -, rfl⟩
  · exact hc.regsHoldLiterals hs hrmem hpop
  · exact hs

end Sys2Proof.Machine

namespace Sys2Proof.Machine

/-! ### RMEM and WMEM outside Memory -/

section MemoryAccessFaults

variable {s : State} {a b : Src} {addr v : Word}

theorem exec_rmem_of_outside {d : Dst} {r : Reg} (hd : regIndex d = .ok r) (ha : resolve s a = .ok addr)
    (outside : memWords ≤ addr.toNat) :
    exec (.rmem d a) s = .next (takeFault .memoryOutOfRange (some 15) s) :=
  commit_eq_next.mpr <| .inr ⟨_, withWR_eq_error.mpr <| .inr
    ⟨r, addr, hd, ha, map_eq_error.mpr <| memRead_eq_error.mpr ⟨outside, rfl⟩⟩, rfl⟩

theorem exec_wmem_of_outside (ha : resolve s a = .ok addr) (hb : resolve s b = .ok v)
    (outside : memWords ≤ addr.toNat) :
    exec (.wmem a b) s = .next (takeFault .memoryOutOfRange (some 16) s) :=
  commit_eq_next.mpr <| .inr ⟨_, withRR_eq_error.mpr <| .inr
    ⟨addr, v, ha, hb, map_eq_error.mpr <| memWrite_eq_error.mpr ⟨outside, rfl⟩⟩, rfl⟩

end MemoryAccessFaults

/-- Settles O38: the format has two operand words, an operand outside its codes ends the decoding of operands, and
else RMEM reads or faults as the address lies inside or outside Memory. -/
theorem rmemCopiesAMemoryWord : Obligations.RmemCopiesAMemoryWord :=
  ⟨fun _ _ _ => rfl,
    missingOperandFaults_of_operandCount rfl,
    fun a b h => invalidOperandFaults_of_not_legal (i := .rmem a b) (Bool.and_eq_false_iff.mpr h) nofun,
    fun _ _ _ _ _ ha hb inside => exec_rmem_eq ha hb (Nat.lt_succ_of_le inside),
    fun _ _ _ _ _ ha hb outside => exec_rmem_of_outside ha hb outside⟩

/-- Settles O39: as for RMEM; the memory that WMEM leaves is the old one with one word stored, and in canonical memory
that word reads back as stored. -/
theorem wmemStoresOneWord : Obligations.WmemStoresOneWord :=
  ⟨fun _ _ _ => rfl,
    missingOperandFaults_of_operandCount rfl,
    fun a b h => invalidOperandFaults_of_not_legal (i := .wmem a b) (Bool.and_eq_false_iff.mpr h) nofun,
    fun s _ _ addr v hm ha hb hin =>
      have inside : addr.toNat < memWords := Nat.lt_succ_of_le hin
      ⟨writeWord s.mem addr.toNat v, exec_wmem_eq ha hb inside, readWord_writeWord_same hm inside,
        fun _ hk => readWord_writeWord_ne hk, fun _ hlo hhi => readByte_writeWord_ne hlo hhi⟩,
    fun _ _ _ _ _ ha hb outside => exec_wmem_of_outside ha hb outside⟩

end Sys2Proof.Machine

namespace Sys2Proof.Machine

/-! ### OUT, and the rows IN and (illegal) -/

section OutputInput

variable {s : State} {a : Src} {v : Word}

/-- `46_output_input.md` R150: the byte OUT sends, as a number. -/
theorem toNat_low_byte (v : Word) : (v.extractLsb' 0 8).toNat = v.toNat % 256 :=
  BitVec.extractLsb'_toNat 0 8 v

theorem exec_out_eq (ha : resolve s a = .ok v) :
    exec (.out a) s = .next (advance 2 (emit (v.extractLsb' 0 8) s)) :=
  commit_eq_next.mpr <| .inl <| withR_eq_ok.mpr ⟨v, ha, rfl⟩

theorem decode_inp (rest : List Word) : decode (20 :: rest) = .ok (.inp, rest) := rfl

theorem exec_inp_eq (s : State) : exec .inp s = .next (takeFault .unknownOpcode (some 20) s) := rfl

theorem exec_illegal_eq (op : Word) (s : State) :
    exec (.illegal op) s = .next (takeFault .unknownOpcode (some op) s) := rfl

end OutputInput

/-- Settles O40: the format has one operand word, an operand outside its codes ends the decoding of operands, and else
OUT emits the low byte of the value. -/
theorem outEmitsTheLowByte : Obligations.OutEmitsTheLowByte :=
  ⟨fun _ _ => rfl,
    missingOperandFaults_of_operandCount rfl,
    fun a h => invalidOperandFaults_of_not_legal (i := .out a) h nofun,
    fun _ _ v ha => ⟨v.extractLsb' 0 8, toNat_low_byte v, exec_out_eq ha⟩⟩

/-- Settles O41: each of these opcode words decodes without operand words, and its execution is the fault entry. -/
theorem inAndIllegalRaiseUnknownOpcode : Obligations.InAndIllegalRaiseUnknownOpcode :=
  ⟨decode_inp,
    fun _ _ h => decode_illegal h,
    exec_inp_eq,
    fun s op => exec_illegal_eq op s⟩

end Sys2Proof.Machine

namespace Sys2Proof.Machine

/-! ### The roles of the operand words, and the fixed order of faults -/

section FixedOrder

variable {s t : State} {i : Instr} {op : Word} {rs : List Role} {k : FaultKind}

/-- `30_encoding.md` R81: the format of an opcode has as many roles as operand words. -/
theorem length_roles (h : roles op = some rs) : rs.length = operandCount op := by
  unfold roles at h
  unfold operandCount
  split at h <;> cases h <;> simp_all

/-- `30_encoding.md` R88: the opcodes without a format are 20 and 22..65535. -/
theorem roles_eq_none : roles op = none ↔ op = 20 ∨ 22 ≤ op.toNat := by
  constructor
  · intro h
    unfold roles at h
    split at h <;> try cases h
    simp only [imp_false] at *
    rcases (by omega : op.toNat = 20 ∨ 22 ≤ op.toNat) with h20 | h22
    · exact .inl (BitVec.eq_of_toNat_eq h20)
    · exact .inr h22
  · rintro (rfl | h)
    · rfl
    · unfold roles
      split <;> try omega
      rfl

/-- A well-formed operand is within the valid codes of its position exactly when its word is. -/
theorem roleAdmits_encodeSrc {x : Src} (h : x.wf = true) : roleAdmits .read (encodeSrc x) = x.legal := by
  rw [← decodeSrc_encodeSrc h, legal_decodeSrc, decodeSrc_encodeSrc h, roleAdmits]

theorem roleAdmits_encodeDst {x : Dst} (h : x.wf = true) : roleAdmits .write (encodeDst x) = x.legal := by
  rw [← decodeDst_encodeDst h, legal_decodeDst, decodeDst_encodeDst h, roleAdmits]

/-- The check of the operand words in Memory is the check of each word against its role. -/
theorem operandsAdmitted_eq_all {m : Memory} {a : Nat} {ws : List Word} (hlen : rs.length = ws.length)
    (hws : ∀ k, (h : k < ws.length) → readWord m (a + k) = ws[k]) :
    operandsAdmitted m rs a = (List.zipWith roleAdmits rs ws).all id := by
  induction rs generalizing a ws with
  | nil => rfl
  | cons r rs ih =>
    cases ws with
    | nil => cases hlen
    | cons w ws =>
      have hw : readWord m a = w := hws 0 (Nat.zero_lt_succ _)
      have hrest := ih (a := a + 1) (Nat.succ.inj hlen) fun k hk => by
        rw [Nat.add_right_comm]
        exact hws (k + 1) (Nat.succ_lt_succ hk)
      rw [operandsAdmitted, hw, hrest]
      rfl

/-- An instruction with a format is legal exactly when each of its operand words is within its role's valid codes. -/
theorem all_roleAdmits_encodeOperands (hw : i.wf = true) (hrs : roles i.opcode = some rs) :
    (List.zipWith roleAdmits rs (encodeOperands i)).all id = i.legal := by
  cases i with
  | halt | ret | noop => cases hrs; rfl
  | inp => cases hrs
  | illegal op => cases hrs.symm.trans (roles_eq_none.mpr (.inr (of_decide_eq_true hw)))
  | push a | jmp a | call a | out a =>
    cases hrs
    simp [encodeOperands, Instr.legal, roleAdmits_encodeSrc hw]
  | pop a =>
    cases hrs
    simp [encodeOperands, Instr.legal, roleAdmits_encodeDst hw]
  | set a b | not a b | rmem a b =>
    obtain ⟨ha, hb⟩ := Bool.and_eq_true_iff.mp hw
    cases hrs
    simp [encodeOperands, Instr.legal, roleAdmits_encodeDst ha, roleAdmits_encodeSrc hb]
  | jt a b | jf a b | wmem a b =>
    obtain ⟨ha, hb⟩ := Bool.and_eq_true_iff.mp hw
    cases hrs
    simp [encodeOperands, Instr.legal, roleAdmits_encodeSrc ha, roleAdmits_encodeSrc hb]
  | eq a b c | gt a b c | add a b c | mult a b c | mod a b c | and a b c | or a b c =>
    obtain ⟨hab, hc⟩ := Bool.and_eq_true_iff.mp hw
    obtain ⟨ha, hb⟩ := Bool.and_eq_true_iff.mp hab
    cases hrs
    simp [encodeOperands, Instr.legal, roleAdmits_encodeDst ha, roleAdmits_encodeSrc hb, roleAdmits_encodeSrc hc,
      Bool.and_assoc]

/-- The operand words of an instruction that was fetched stand in Memory after its opcode word. -/
theorem readWord_operand {rest : List Word} (hd : decode (fetchWindow s) = .ok (i, rest)) {k : Nat}
    (hk : k < (encodeOperands i).length) : readWord s.mem (s.pc.toNat + 1 + k) = (encodeOperands i)[k] := by
  have hwin : i.opcode :: (encodeOperands i ++ rest) = fetchWords s.mem maxWords s.pc.toNat := encode_of_decode hd
  have hlt : k + 1 < (fetchWords s.mem maxWords s.pc.toNat).length := by
    rw [← hwin, List.length_cons, List.length_append]
    omega
  have hread := getElem_fetchWords hlt
  rw [Nat.add_assoc, Nat.add_comm 1 k, ← hread]
  simp [← hwin, hk]

/-- `60_exceptions.md` R214: past checks 1 to 3 the words decode, and the instruction is legal exactly when check 4
passes. -/
theorem exists_decoded (hpc : s.pc.toNat < memWords) (hrs : roles (readWord s.mem s.pc.toNat) = some rs)
    (hfit : s.pc.toNat + rs.length < memWords) :
    ∃ i rest, decode (fetchWindow s) = .ok (i, rest) ∧ i.opcode = readWord s.mem s.pc.toNat ∧
      (encodeOperands i).length = rs.length ∧ i.legal = operandsAdmitted s.mem rs (s.pc.toNat + 1) := by
  rcases hd : decode (fetchWindow s) with e | ⟨i, rest⟩
  · rcases decode_fetchWindow_eq_error.mp hd with ⟨hpast, -⟩ | ⟨-, hmissing, -⟩
    · omega
    · rw [← length_roles hrs] at hmissing
      omega
  · obtain ⟨hhead, hw⟩ := decode_opcode hd
    have hop : i.opcode = readWord s.mem s.pc.toNat := by
      rw [head?_fetchWindow hpc] at hhead
      exact (Option.some.inj hhead).symm
    have hlen : (encodeOperands i).length = rs.length := by
      have := (encodedLength i hw).1
      rw [hop, ← length_roles hrs, encode, List.length_cons] at this
      omega
    refine ⟨i, rest, rfl, hop, hlen, ?_⟩
    rw [operandsAdmitted_eq_all hlen.symm fun _ => readWord_operand hd,
      all_roleAdmits_encodeOperands hw (hop ▸ hrs)]

/-- The outcomes of checks 1 to 4 of `60_exceptions.md` R214, in their order: one of the first three fails, or the
operand words decide. -/
theorem firstFault_cases (s : State) :
    (memWords ≤ s.pc.toNat ∧ firstFault s = some (.memoryOutOfRange, none)) ∨
    (s.pc.toNat < memWords ∧
      ((roles (readWord s.mem s.pc.toNat) = none ∧
          firstFault s = some (.unknownOpcode, some (readWord s.mem s.pc.toNat))) ∨
       ∃ rs, roles (readWord s.mem s.pc.toNat) = some rs ∧
        ((memWords ≤ s.pc.toNat + rs.length ∧
            firstFault s = some (.memoryOutOfRange, some (readWord s.mem s.pc.toNat))) ∨
         (s.pc.toNat + rs.length < memWords ∧
            firstFault s = if operandsAdmitted s.mem rs (s.pc.toNat + 1) then none
              else some (.invalidOperandCode, some (readWord s.mem s.pc.toNat)))))) := by
  rcases Nat.lt_or_ge s.pc.toNat memWords with hpc | hpast
  · have hpc' : ¬32767 < s.pc.toNat := Nat.not_lt_of_le (Nat.le_of_lt_succ hpc)
    refine .inr ⟨hpc, ?_⟩
    simp only [firstFault, if_neg hpc']
    cases roles (readWord s.mem s.pc.toNat) with
    | none => exact .inl ⟨rfl, rfl⟩
    | some rs =>
      refine .inr ⟨rs, rfl, ?_⟩
      rcases Nat.lt_or_ge (s.pc.toNat + rs.length) memWords with hfit | hmissing
      · exact .inr ⟨hfit, if_neg (Nat.not_lt_of_le (Nat.le_of_lt_succ hfit))⟩
      · exact .inl ⟨hmissing, if_pos hmissing⟩
  · exact .inl ⟨hpast, if_pos hpast⟩

/-- `60_exceptions.md` R214: a step reports the first of checks 1 to 4 that fails. -/
theorem step_of_firstFault {o : Option Word} (hr : s.runState = .running) (h : firstFault s = some (k, o)) :
    step s = .next (takeFault k o s) := by
  rcases firstFault_cases s with ⟨hpast, hf⟩ | ⟨hpc, ⟨hnone, hf⟩ | ⟨rs, hrs, ⟨hmissing, hf⟩ | ⟨hfit, hf⟩⟩⟩ <;>
    rw [hf] at h
  · cases h
    exact step_of_pc_past_memory hr hpast
  · cases h
    exact unknownOpcodeFaultsAtFetch s hr (Nat.le_of_lt_succ hpc) (roles_eq_none.mp hnone)
  · cases h
    exact missingOperandFaults_of_operandCount (length_roles hrs).symm s hr (Nat.le_of_lt_succ hpc) rfl hmissing
  · obtain ⟨i, rest, hd, hop, hlen, hl⟩ := exists_decoded hpc hrs hfit
    rw [← hl, ← hop] at h
    cases hi : i.legal with
    | true => simp [hi] at h
    | false =>
      have hops : encodeOperands i ≠ [] := fun hnil => by
        rw [hnil] at hlen
        rw [List.eq_nil_of_length_eq_zero hlen.symm, operandsAdmitted, hi] at hl
        cases hl
      simp only [hi, Bool.false_eq_true, if_false] at h
      cases h
      rw [step_decoded hr hd]
      exact invalidOperandFaults_of_not_legal hi hops s

/-- When none of checks 1 to 4 of `60_exceptions.md` R214 fails, the words at the pc are a legal instruction. -/
theorem exists_legal_of_firstFault_eq_none (h : firstFault s = none) :
    ∃ i rest, decode (fetchWindow s) = .ok (i, rest) ∧ i.legal = true := by
  rcases firstFault_cases s with ⟨-, hf⟩ | ⟨hpc, ⟨-, hf⟩ | ⟨rs, hrs, ⟨-, hf⟩ | ⟨hfit, hf⟩⟩⟩ <;> rw [hf] at h
  · cases h
  · cases h
  · cases h
  · obtain ⟨i, rest, hd, -, -, hl⟩ := exists_decoded hpc hrs hfit
    exact ⟨i, rest, hd, hl.trans (by simpa using h)⟩

/-- A legal instruction that enters a fault reports its own check (check 5 of `60_exceptions.md` R214). -/
theorem ownCheck_of_exec_faulted (hr : s.runState = .running) (hl : i.legal = true) (h : exec i s = .next t)
    (hf : t.runState = .faulted) : ∃ k, ownCheck i.opcode k = true ∧ t = takeFault k (some i.opcode) s := by
  rcases exec_cases h with hc | ⟨k, ⟨-, rfl | ⟨op, rfl⟩⟩ | ⟨-, hill, -⟩ | ⟨-, hown⟩, rfl⟩
  · exact absurd hf (hc.not_faulted hr)
  · cases hl
  · cases hl
  · simp [hl] at hill
  · exact ⟨k, hown, rfl⟩

end FixedOrder

/-- Settles O15: checks 1 to 4 read off Memory are those of the fetch and of the operand decoding, and past them the
decoded instruction is legal, so that only its own check is left. -/
theorem faultsFollowTheFixedOrder : Obligations.FaultsFollowTheFixedOrder := by
  refine fun s hr => ⟨fun k op h => step_of_firstFault hr h, fun h => ?_⟩
  obtain ⟨i, rest, hd, hl⟩ := exists_legal_of_firstFault_eq_none h
  have hstep := step_decoded hr hd
  exact ⟨i, rest, hd, hl, hstep, fun t ht hf => ownCheck_of_exec_faulted hr hl (hstep ▸ ht) hf⟩

/-- Settles O16: a pc above Memory leaves no opcode word, and an opcode's format has as many operand words as roles. -/
theorem fetchPastMemoryFaults : Obligations.FetchPastMemoryFaults :=
  ⟨fun _ hr hpast => step_of_pc_past_memory hr hpast,
    fun s _ hr hpc hrs hmissing =>
      missingOperandFaults_of_operandCount (length_roles hrs).symm s hr hpc rfl hmissing⟩

/-- Settles O50: a step into Faulted is one of the two fetch faults or the fault entry of the instruction decoded from
the word at pc, because an instruction that completes is not in Faulted. -/
theorem faultEntryChangesNothingElse : Obligations.FaultEntryChangesNothingElse := by
  intro s t h hf
  obtain ⟨hr, ⟨hpast, rfl⟩ | ⟨hpc, -, rfl⟩ | ⟨hpc, i, -, -, hop, -, hx⟩⟩ := step_cases h
  · exact ⟨_, none, rfl, iff_of_true rfl hpast, fun hpc => absurd hpc (Nat.not_le_of_lt hpast)⟩
  · exact ⟨_, _, rfl, iff_of_false nofun (Nat.not_lt_of_le (Nat.le_of_lt_succ hpc)), fun _ => rfl⟩
  · rcases exec_cases hx with hc | ⟨k, -, rfl⟩
    · exact absurd hf (hc.not_faulted hr)
    · exact ⟨k, _, rfl, iff_of_false nofun (Nat.not_lt_of_le (Nat.le_of_lt_succ hpc)), fun _ => by rw [hop]⟩

/-- Settles O51: every fault entry of a step writes a row of the table, and an instruction that completes is not in
Faulted. -/
theorem faultReportIsARowOfTheTable : Obligations.FaultReportIsARowOfTheTable := by
  intro s t h hf
  rcases step_completes_or_faults h with ⟨i, hc⟩ | ⟨k, op, hrow, rfl⟩
  · exact absurd hf (hc.not_faulted (step_cases h).1)
  · exact ⟨_, rfl, hrow⟩

theorem exitStatus_of_running {s : State} (h : s.runState = .running) : exitStatus s = none := by
  rw [exitStatus, h]

/-- Settles O58: one status for each value of RUN_STATE; that of Faulted is FAULT_EXIT_CODE, which the invariant makes
non-zero. -/
theorem exitStatusTellsHaltFromFault : Obligations.ExitStatusTellsHaltFromFault := by
  refine fun s => ⟨exitStatus_of_halted, exitStatus_of_faulted, fun hi => ?_⟩
  cases hs : s.runState with
  | running => simp [exitStatus_of_running hs]
  | halted => simp [exitStatus_of_halted hs]
  | faulted => simpa [exitStatus_of_faulted hs] using hi.configWf

end Sys2Proof.Machine

namespace Sys2Proof.Machine

/-! ### What a load can do -/

section LoadOutcomes

variable {c : Config} {image bytes : List Byte} {k : FaultKind}

/-- `20_memory.md` R57: the only image a policy rejects is an odd one under the policy Fault. -/
theorem applyPolicy_eq_error {p : OddImagePolicy} :
    applyPolicy p image = .error k ↔ image.length % 2 = 1 ∧ p = .fault ∧ k = .loadOddLength := by
  rcases Nat.mod_two_eq_zero_or_one image.length with heven | hodd
  · simp [applyPolicy_even heven, heven]
  · cases p with
    | fault => simp [applyPolicy_fault hodd, hodd, eq_comm]
    | dropTrailing => simp [applyPolicy_dropTrailing hodd]
    | padZero => simp [applyPolicy_padZero hodd]

/-- `20_memory.md` R55: what the policy leaves fits. -/
theorem boot_of_policy_ok (h : applyPolicy c.oddImagePolicy image = .ok bytes) (hfits : bytes.length / 2 ≤ memWords) :
    boot c image = setMem (storeWords (wordsOfBytes bytes) 0 []) (State.init c) := by
  simp [boot, imageWords, h, bind, Except.bind, length_wordsOfBytes, Nat.not_lt_of_le hfits, State.init]

/-- `70_reset_and_hazards.md` R242, R243: all a load can do. The words that the policy leaves fit and are stored in the
constructed state, or the constructed state enters one of the two load faults. -/
theorem boot_cases (c : Config) (image : List Byte) :
    (∃ bytes, applyPolicy c.oddImagePolicy image = .ok bytes ∧ bytes.length / 2 ≤ memWords ∧
      boot c image = setMem (storeWords (wordsOfBytes bytes) 0 []) (State.init c)) ∨
    (∃ bytes, applyPolicy c.oddImagePolicy image = .ok bytes ∧ memWords < bytes.length / 2 ∧
      boot c image = takeFault .loadOverflow none (State.init c)) ∨
    (image.length % 2 = 1 ∧ c.oddImagePolicy = .fault ∧
      boot c image = takeFault .loadOddLength none (State.init c)) := by
  cases h : applyPolicy c.oddImagePolicy image with
  | error k =>
    obtain ⟨hodd, hp, rfl⟩ := applyPolicy_eq_error.mp h
    exact .inr (.inr ⟨hodd, hp, boot_of_policy_error h⟩)
  | ok bytes =>
    rcases Nat.lt_or_ge memWords (bytes.length / 2) with hlong | hfits
    · exact .inr (.inl ⟨bytes, rfl, hlong, boot_of_overflow h hlong⟩)
    · exact .inl ⟨bytes, rfl, hfits, boot_of_policy_ok h hfits⟩

/-- A load that ends Faulted is the entry of a load fault in the constructed state. -/
theorem boot_of_faulted (h : (boot c image).runState = .faulted) :
    ∃ k, (k = .loadOverflow ∨ k = .loadOddLength ∧ c.oddImagePolicy = .fault) ∧
      boot c image = takeFault k none (State.init c) := by
  rcases boot_cases c image with ⟨bytes, -, -, hb⟩ | ⟨bytes, -, -, hb⟩ | ⟨-, hp, hb⟩
  · rw [hb] at h
    cases h
  · exact ⟨_, .inl rfl, hb⟩
  · exact ⟨_, .inr ⟨rfl, hp⟩, hb⟩

end LoadOutcomes

/-- Settles O5: the load is a fault entry in the constructed state, which keeps all but RUN_STATE and FAULT_INFO; no
step is defined when RUN_STATE is not Running. -/
theorem failedLoadRunsNothing : Obligations.FailedLoadRunsNothing := by
  intro c image h
  obtain ⟨k, hk, hb⟩ := boot_of_faulted h
  have hstuck : ∀ t, step (boot c image) ≠ .next t := fun t => step_not_running (by simp [h])
  refine ⟨⟨k, hk, ?_⟩, ?_, ?_, ?_, ?_, hstuck⟩ <;> rw [hb]
  · rfl
  · exact fun a _ => readWord_nil a
  · exact fun r => Vector.getElem_replicate r.isLt
  · rfl
  · rfl

/-! ### The invariant at construction and after the load -/

/-- The constructed state has an empty Memory, an empty stack and no FAULT_INFO. -/
theorem inv_init {c : Config} (hc : c.wf) : Inv (State.init c) where
  memWf := rfl
  configWf := hc
  stackFits := fun n _ => Nat.zero_le n
  faultIff := iff_of_false nofun nofun
  faultPc := nofun
  faultRow := nofun

theorem Inv.of_setMem {s : State} {m : Memory} (hi : Inv s) (hm : m.wf = true) : Inv (setMem m s) where
  memWf := hm
  configWf := hi.configWf
  stackFits := hi.stackFits
  faultIff := hi.faultIff
  faultPc := hi.faultPc
  faultRow := hi.faultRow

/-- Settles O54: storing words keeps Memory canonical, and each load fault at pc 0 without an opcode is a row of the
table of kinds. -/
theorem bootHasTheInvariant : Obligations.BootHasTheInvariant := by
  intro c image hc
  have hi : Inv (State.init c) := inv_init hc
  rcases boot_cases c image with ⟨bytes, -, -, hb⟩ | ⟨bytes, -, -, hb⟩ | ⟨-, -, hb⟩ <;> rw [hb]
  · exact hi.of_setMem (wf_storeWords rfl)
  · exact hi.of_takeFault rfl
  · exact hi.of_takeFault rfl

/-- Settles O53: reset is construction under the reference configuration, whose FAULT_EXIT_CODE is 1. -/
theorem resetHasTheInvariant : Obligations.ResetHasTheInvariant :=
  inv_init (c := Config.reference) (by decide)

end Sys2Proof.Machine
